-- ==== Sys2Proof/Word.lean ====
section
/-! DEFINITION. The words, timings and register names of the host interface, and the host's accesses
(spec/10_state.md rules R10, R18; spec/30_encoding.md rule R41; spec/70_reset_and_hazards.md rules R156, R157).

A timing is an unsigned duration in microseconds (R8). The spec compares timings as exact non-negative
integers and never wraps one (R5, R51), and their width TW is a parameter, so a timing is a `Nat`; that it
fits TW bits is checked where it enters the block and kept as an invariant (notes/assumptions/4.md,
DESIGN CHOICE, safe). -/

namespace Sys2Proof

/-- A command word, 32 bits (R41). -/
abbrev Word := BitVec 32

/-- The nine registers of the map in R10. -/
inductive Reg where
  | cmd | status | sample | count | opa | opb | result | errA | errB
  deriving DecidableEq, Repr

/-- The host's two primitives on a register index (R10): `RegRead(i)` and `RegWrite(i, v)`. -/
inductive Access where
  | read (index : Nat)
  | write (index value : Nat)
  deriving DecidableEq, Repr

/-- What may happen to the block in a run (R157): a host access, or the reset event (R150). -/
inductive HostEvent where
  | access (a : Access)
  | reset
  deriving DecidableEq, Repr

end Sys2Proof
end

