-- ==== Sys2Proof/Config.lean ====
section
/-! DEFINITION. What is fixed when the block is built: the width parameters TW and CW
(spec/00_scope.md rule R5; spec/92_eei_decisions.md D3, D5). -/

namespace Sys2Proof

/-- The two open parameters of R5. -/
structure Params where
  /-- TW: the width in bits of a timing, of OPA, of OPB and of each SEQ entry. -/
  tw : Nat
  /-- CW: the width in bits of COUNT. -/
  cw : Nat
  deriving DecidableEq, Repr

namespace Params

/-- The defaults of R5: TW = 32 and CW = 32. -/
def default : Params := { tw := 32, cw := 32 }

/-- The constraints of R5: TW is at least 16 and CW at least 6. -/
abbrev wf (p : Params) : Prop := 16 ≤ p.tw ∧ 6 ≤ p.cw

/-- EW = max(TW, CW), the width in bits of ERR_A and ERR_B (R5). -/
def ew (p : Params) : Nat := max p.tw p.cw

end Params

end Sys2Proof
end

