-- ==== Sys2Proof/Syntax.lean ====
section
/-! DEFINITION. The block's operations, one constructor per row of spec/opcode_table.json
(spec/30_encoding.md rules R42, R43, R45). -/

namespace Sys2Proof

/-- An operation the host can ask of the block. The first six are commands (words written to CMD);
the next three are data writes and the last is a register read. -/
inductive Instr where
  /-- CLEAR: empties the frame (R110). -/
  | clear
  /-- CLASSIFY m: is the timing in OPA valid for multiplier m (R50). -/
  | classify (m : BitVec 8)
  /-- DECBIT: the bit of the pulse pair (OPA, OPB) (R60). -/
  | decbit
  /-- DECVAL base, len, bits: a value from a slice of SEQ (R70). -/
  | decval (base len bits : BitVec 8)
  /-- CHKSUM: the checksum of OPA[15:0] (R80). -/
  | chksum
  /-- DECODE: decodes the frame in SEQ (R90). -/
  | decode
  /-- PUSH t: appends a timing to the frame (R111). -/
  | push (t : Nat)
  /-- SETA v: loads OPA (R112). -/
  | seta (v : Nat)
  /-- SETB v: loads OPB (R112). -/
  | setb (v : Nat)
  /-- RD r: reads a register (R113). -/
  | rd (r : Reg)
  deriving DecidableEq, Repr

end Sys2Proof
end

