-- ==== Sys2Proof/WellFormed.lean ====
section
/-! DEFINITION. Which operations the interface admits: the host supplies exactly the register's width
(spec/10_state.md rule R10; spec/93_implementation_defined.md V8). -/

namespace Sys2Proof

/-- A timing fits the TW bits of SAMPLE, OPA and OPB (R10). -/
abbrev Params.fitsTiming (p : Params) (t : Nat) : Prop := t < 2 ^ p.tw

/-- The operands of an operation fit their fields. The fields of a command word have their widths in
their types; only the TW-bit values of the data writes need a check. -/
def Instr.wellFormed (p : Params) : Instr → Bool
  | .clear => true
  | .classify _ => true
  | .decbit => true
  | .decval _ _ _ => true
  | .chksum => true
  | .decode => true
  | .push t => decide (p.fitsTiming t)
  | .seta v => decide (p.fitsTiming v)
  | .setb v => decide (p.fitsTiming v)
  | .rd _ => true

end Sys2Proof
end

