-- ==== Sys2Proof/Decode.lean ====
section
/-! DEFINITION. From a host access to an operation, and back
(spec/30_encoding.md rules R40 to R45; spec/10_state.md rule R10). -/

namespace Sys2Proof

/-! ## The register map (R10) -/

/-- The index of a register in the map of R10. -/
def Reg.index : Reg → Nat
  | .cmd => 0
  | .status => 1
  | .sample => 2
  | .count => 3
  | .opa => 4
  | .opb => 5
  | .result => 6
  | .errA => 7
  | .errB => 8

/-- The register at an index; none outside 0 to 8, which is not part of the interface (R10). -/
def regAt : Nat → Option Reg
  | 0 => some .cmd
  | 1 => some .status
  | 2 => some .sample
  | 3 => some .count
  | 4 => some .opa
  | 5 => some .opb
  | 6 => some .result
  | 7 => some .errA
  | 8 => some .errB
  | _ => none

/-- The width of a register in bits (R10). -/
def Reg.width (p : Params) : Reg → Nat
  | .cmd => 32
  | .status => 32
  | .sample => p.tw
  | .count => p.cw
  | .opa => p.tw
  | .opb => p.tw
  | .result => 16
  | .errA => p.ew
  | .errB => p.ew

/-! ## Command words (R41, R42, R44) -/

/-- `w[31:28]`, the opcode (R41). -/
def opField (w : Word) : BitVec 4 := w.extractLsb' 28 4

/-- `w[27:24]`, which every command requires to be 0 (R41). -/
def zField (w : Word) : BitVec 4 := w.extractLsb' 24 4

/-- `w[23:16]`, the third operand (R41). -/
def cField (w : Word) : BitVec 8 := w.extractLsb' 16 8

/-- `w[15:8]`, the second operand (R41). -/
def bField (w : Word) : BitVec 8 := w.extractLsb' 8 8

/-- `w[7:0]`, the first operand (R41). -/
def aField (w : Word) : BitVec 8 := w.extractLsb' 0 8

/-- Why a command word is illegal, for the reasons its bits alone show: items 1 and 2 of R44. Items 3
to 5 depend on the machine's state or on an operand's range and are tested by the commands. -/
inductive IllegalReason where
  /-- item 1: `w[31:28]` is 0x0 or 0x7 to 0xF -/
  | reservedOpcode
  /-- item 2: a field that the format requires to be 0 is not 0 -/
  | nonzeroField
  deriving DecidableEq, Repr

/-- Format N (R41): every field but the opcode is 0. -/
def noOperand (w : Word) (i : Instr) : Except IllegalReason Instr :=
  if zField w = 0 ∧ cField w = 0 ∧ bField w = 0 ∧ aField w = 0 then .ok i
  else .error .nonzeroField

/-- Format M (R41): one 8-bit operand, the multiplier. -/
def multiplierOperand (w : Word) : Except IllegalReason Instr :=
  if zField w = 0 ∧ cField w = 0 ∧ bField w = 0 then .ok (.classify (aField w))
  else .error .nonzeroField

/-- Format V (R41): three 8-bit operands, base, len and bits (R43). -/
def sliceOperands (w : Word) : Except IllegalReason Instr :=
  if zField w = 0 then .ok (.decval (aField w) (bField w) (cField w))
  else .error .nonzeroField

/-- Decodes a command word, by the opcode map of R42. Total: every other word is illegal (R44), a
reserved opcode before a nonzero field. -/
def decodeCommand (w : Word) : Except IllegalReason Instr :=
  if opField w = 1#4 then noOperand w .clear
  else if opField w = 2#4 then multiplierOperand w
  else if opField w = 3#4 then noOperand w .decbit
  else if opField w = 4#4 then sliceOperands w
  else if opField w = 5#4 then noOperand w .chksum
  else if opField w = 6#4 then noOperand w .decode
  else .error .reservedOpcode

/-! ## Host accesses (R40, R45) -/

/-- Why an access is no operation of the opcode table. -/
inductive Reject where
  /-- An index outside 0 to 8: not part of the interface (R10). -/
  | noRegister (index : Nat)
  /-- A value wider than the register: outside the interface (R10). -/
  | tooWide (r : Reg) (value : Nat)
  /-- A write to a read-only register: ignored (R10). -/
  | readOnly (r : Reg)
  /-- An illegal command word (R44 items 1 and 2): the ILLEGAL_COMMAND outcome (R134). -/
  | illegalWord (w : Word) (why : IllegalReason)
  deriving DecidableEq, Repr

/-- A write of a value that fits the register: a command, a data write, or an ignored write
(R10, R40, R45). -/
def decodeWrite (r : Reg) (v : Nat) : Except Reject Instr :=
  match r with
  | .cmd =>
    match decodeCommand (BitVec.ofNat 32 v) with
    | .ok i => .ok i
    | .error why => .error (.illegalWord (BitVec.ofNat 32 v) why)
  | .sample => .ok (.push v)
  | .opa => .ok (.seta v)
  | .opb => .ok (.setb v)
  | .status => .error (.readOnly .status)
  | .count => .error (.readOnly .count)
  | .result => .error (.readOnly .result)
  | .errA => .error (.readOnly .errA)
  | .errB => .error (.readOnly .errB)

/-- Decodes a host access: total, every access is an operation or is rejected by name. -/
def decode (p : Params) : Access → Except Reject Instr
  | .read i =>
    match regAt i with
    | some r => .ok (.rd r)
    | none => .error (.noRegister i)
  | .write i v =>
    match regAt i with
    | some r => if v < 2 ^ r.width p then decodeWrite r v else .error (.tooWide r v)
    | none => .error (.noRegister i)

/-! ## The encoder (R42, R45, R46) -/

/-- The word of CLEAR (R42). -/
def clearWord : Word := 0x10000000#32

/-- The word of CLASSIFY m, `0x20000000 + m` (R46). -/
def classifyWord (m : BitVec 8) : Word := 0x200000#24 ++ m

/-- The word of DECBIT (R42). -/
def decbitWord : Word := 0x30000000#32

/-- The word of DECVAL base, len, bits, `0x40000000 + (bits << 16) + (len << 8) + base` (R46). -/
def decvalWord (base len bits : BitVec 8) : Word := 0x40#8 ++ bits ++ len ++ base

/-- The word of CHKSUM (R42). -/
def chksumWord : Word := 0x50000000#32

/-- The word of DECODE (R42). -/
def decodeWord : Word := 0x60000000#32

/-- The host access that asks for an operation (R46). -/
def encode : Instr → Access
  | .clear => .write 0 clearWord.toNat
  | .classify m => .write 0 (classifyWord m).toNat
  | .decbit => .write 0 decbitWord.toNat
  | .decval base len bits => .write 0 (decvalWord base len bits).toNat
  | .chksum => .write 0 chksumWord.toNat
  | .decode => .write 0 decodeWord.toNat
  | .push t => .write 2 t
  | .seta v => .write 4 v
  | .setb v => .write 5 v
  | .rd r => .read r.index

/-! ## The opcode table's rows (R42) -/

/-- A row of the opcode map of R42: a word `w` selects the row's command when `w & mask = word`. -/
structure OpcodeRow where
  mnemonic : String
  mask : Word
  word : Word
  deriving DecidableEq, Repr

/-- The six command rows of R42, in the table's order. -/
def opcodeRows : List OpcodeRow :=
  [ ⟨"CLEAR", 0xFFFFFFFF#32, 0x10000000#32⟩,
    ⟨"CLASSIFY", 0xFFFFFF00#32, 0x20000000#32⟩,
    ⟨"DECBIT", 0xFFFFFFFF#32, 0x30000000#32⟩,
    ⟨"DECVAL", 0xFF000000#32, 0x40000000#32⟩,
    ⟨"CHKSUM", 0xFFFFFFFF#32, 0x50000000#32⟩,
    ⟨"DECODE", 0xFFFFFFFF#32, 0x60000000#32⟩ ]

/-- The row of R42 a word selects. -/
abbrev OpcodeRow.selects (row : OpcodeRow) (w : Word) : Prop := w &&& row.mask = row.word

/-! ## The opcode table's numbering -/

/-- The access a table word stands for (notes/assumptions/6.md, DESIGN CHOICE, safe). A row wider than
a byte is a command word, written to CMD. The rows PUSH, SETA, SETB and RD are 4-bit register indices
with no bit for the direction or the value: 2, 4 and 5 are the data writes, of the value 0, and every
other index is a read. -/
def tableAccess (nbits w : Nat) : Access :=
  if 8 < nbits then .write 0 w
  else if w = 2 ∨ w = 4 ∨ w = 5 then .write w 0
  else .read w

/-- The operation the decoder reads from a table word, at the default widths. -/
def decodeTableWord (nbits w : Nat) : Option Instr :=
  match decode Params.default (tableAccess nbits w) with
  | .ok i => some i
  | .error _ => none

end Sys2Proof
end

