-- ==== Sys2Proof/Machine/State.lean ====
section
/-! DEFINITION. The state of the block: nine registers and the sample memory SEQ
(spec/10_state.md rules R10 to R23, spec/20_memory.md rules R30, R32), and the host's run
(spec/70_reset_and_hazards.md rule R157). -/

namespace Sys2Proof.Machine

/-- The sample memory SEQ (R30): its written entries as (index, timing) cells in rising order of index.
An index that is not listed is unwritten and holds no value (R32; notes/assumptions/4.md and
notes/assumptions/5.md, DESIGN CHOICE, safe). -/
abbrev Memory := List (Nat × Nat)

/-- The canonical form of SEQ: indices strictly rising, and all of them below 43 (R30). -/
abbrev Memory.wf (m : Memory) : Prop :=
  (m.map Prod.fst).Pairwise (· < ·) ∧ ∀ c ∈ m, c.1 < 43

/-- The fields of STATUS (R15). Bits [7:6] and [31:12] are not storage: they always read 0. -/
structure Status where
  /-- [3:0]: the error code of the last command. -/
  err : BitVec 4
  /-- [4]: a command has executed since reset. -/
  done : Bool
  /-- [5]: a PUSH was lost to the count's saturation since the last CLEAR or reset. -/
  sat : Bool
  /-- [11:8]: bits [31:28] of the last command word. -/
  op : BitVec 4
  deriving DecidableEq, Repr

/-- The block's own state: all that the spec gives the machine, and nothing else (R10 to R18, R30).
SAMPLE is a port, not storage (R18), and the widths are no state (R23), so neither is a field. -/
structure Block where
  /-- CMD, index 0 (R14). -/
  cmd : Word
  /-- STATUS, index 1 (R15). -/
  status : Status
  /-- COUNT, index 3, CW bits (R17). -/
  count : Nat
  /-- OPA, index 4, TW bits (R11). -/
  opa : Nat
  /-- OPB, index 5, TW bits (R11). -/
  opb : Nat
  /-- RESULT, index 6 (R12). -/
  result : BitVec 16
  /-- ERR_A, index 7, EW bits (R13). -/
  errA : Nat
  /-- ERR_B, index 8, EW bits (R13). -/
  errB : Nat
  /-- SEQ, the sample memory (R30). -/
  seq : Memory
  deriving DecidableEq, Repr

/-- A block and the host's run on it (R157): the state of the machine that has been given its widths. -/
structure Session extends Block where
  /-- The accesses and reset events of the run still to come, oldest first (R157;
  notes/assumptions/2.md, DESIGN CHOICE, safe). -/
  pending : List HostEvent
  /-- The values the run's reads have returned, oldest first (R157; notes/assumptions/3.md,
  DESIGN CHOICE, safe). -/
  reads : List Nat
  deriving DecidableEq, Repr

/-- A session together with the argument it runs under: TW and CW, which are fixed when the block is built
and are no state (R23). `exec` and `step` have no argument of their own for them, so they stand beside the
session here; `machine` takes them as its argument (notes/assumptions/1.md, DESIGN CHOICE, safe). -/
structure State extends Session where
  /-- TW and CW (R5), the argument of the whole machine; no step changes them. -/
  params : Params
  deriving DecidableEq, Repr

/-- The session run on a block built with the given widths (R23). -/
def Session.atWidths (c : Session) (p : Params) : State := { toSession := c, params := p }

/-- Why the machine stops with a fault. -/
inductive Fault where
  /-- DECVAL or DECODE would read an unwritten entry of SEQ. Raised by `withSlice` alone. Safe: the
  entry holds no value (spec/93_implementation_defined.md V5), and no state a run reaches raises it
  (R32). -/
  | unwrittenSample (index : Nat)
  deriving DecidableEq, Repr

/-- Why the machine gives a host access no step. -/
inductive Refusal where
  /-- An instruction that has no meaning yet. Safe. No arm of `exec` uses it. -/
  | notModelled (mnemonic : String)
  /-- A register index outside 0 to 8, which the spec gives no meaning (R10, V6). Raised by
  `rejectAccess`. Safe: no step is taken. -/
  | noSuchRegister (index : Nat)
  /-- A write of a value wider than the register, which is outside the interface (R10, V8). Raised by
  `rejectAccess` and by the data writes. Safe: no step is taken. -/
  | valueTooWide (r : Reg) (value : Nat)
  deriving DecidableEq, Repr

/-- The outcome of a step of this machine. -/
abbrev Result := Host.Outcome State Fault Refusal

/-- The block after reset (R22): every register 0, every entry of SEQ unwritten. The values are the same at
all widths. -/
def Block.reset : Block :=
  { cmd := 0
    status := { err := 0, done := false, sat := false, op := 0 }
    count := 0
    opa := 0
    opb := 0
    result := 0
    errA := 0
    errB := 0
    seq := [] }

/-- A reset block on which nothing has happened yet. -/
def Session.reset : Session := { toBlock := Block.reset, pending := [], reads := [] }

/-- The state after reset at the default widths of R5. At other widths it is `Session.reset.atWidths p`. -/
def State.reset : State := Session.reset.atWidths Params.default

end Sys2Proof.Machine
end

