-- ==== Sys2Proof/Machine/Protocol.lean ====
section
/-! DEFINITION. The protocol's fixed constants, wired into the block
(spec/00_scope.md rule R4; spec/10_state.md rule R23). -/

namespace Sys2Proof.Machine

/-- BASE_UNIT: the base time unit in microseconds. -/
abbrev baseUnit : Nat := 480

/-- TOL_PCT: the tolerance in percent of the etalon. -/
abbrev tolerancePercent : Nat := 25

/-- FRAME_LEN: the timings of a valid frame, and the entries of SEQ. -/
abbrev frameLen : Nat := 43

/-- DATA_LO, the first index of the data region [2,34). -/
abbrev dataLo : Nat := 2

/-- The timings of the data region: DATA_HI - DATA_LO = 32. -/
abbrev dataLen : Nat := 32

/-- DATA_BITS: the width of the decoded value. -/
abbrev dataBits : Nat := 16

/-- CHK_LO, the first index of the checksum region [34,42). -/
abbrev chkLo : Nat := 34

/-- The timings of the checksum region: CHK_HI - CHK_LO = 8. -/
abbrev chkLen : Nat := 8

/-- CHK_BITS: the width of the checksum. -/
abbrev chkBits : Nat := 4

/-- EPI_LO, the index of the epilogue. -/
abbrev epiLo : Nat := 42

/-- M_PRE0: the multiplier expected of timing 0. -/
abbrev mPre0 : Nat := 18

/-- M_PRE1: the multiplier expected of timing 1. -/
abbrev mPre1 : Nat := 8

/-- M_EPI: the multiplier expected of timing 42. -/
abbrev mEpi : Nat := 1

/-- M_MARK: the multiplier expected of every on-duration. -/
abbrev mMark : Nat := 1

/-- M_SPACE0: the multiplier of an off-duration that encodes bit 0. -/
abbrev mSpace0 : Nat := 1

/-- M_SPACE1: the multiplier of an off-duration that encodes bit 1. -/
abbrev mSpace1 : Nat := 3

end Sys2Proof.Machine
end

