-- ==== Sys2Proof/Machine/Flags.lean ====
section
/-! DEFINITION. The block's errors with their codes and payloads, and the STATUS word
(spec/60_exceptions.md rules R130 to R132; spec/10_state.md rule R15). -/

namespace Sys2Proof.Machine

/-- The errors a command can end in (R130), as one flat type (R132). Code 2, the parse failure, is the
host shell's and no error of the block. -/
inductive BlockError where
  | emptySequence
  | wrongTimingsNumber (expected actual : Nat)
  | wrongPreamble
  | wrongEpilogue
  | abnormalLedOnBitValue (t : Nat)
  | abnormalLedOffBitValue (t : Nat)
  | checksumMismatch (expected actual : Nat)
  | illegalCommand (w : Word)
  deriving DecidableEq, Repr

/-- The value of STATUS.ERR for an error (R130). -/
def BlockError.code : BlockError → BitVec 4
  | .emptySequence => 1
  | .wrongTimingsNumber _ _ => 3
  | .wrongPreamble => 4
  | .wrongEpilogue => 5
  | .abnormalLedOnBitValue _ => 6
  | .abnormalLedOffBitValue _ => 7
  | .checksumMismatch _ _ => 8
  | .illegalCommand _ => 15

/-- What ERR_A and ERR_B hold for an error, before the extension to EW bits (R131). -/
def BlockError.payload : BlockError → Nat × Nat
  | .emptySequence => (0, 0)
  | .wrongTimingsNumber expected actual => (expected, actual)
  | .wrongPreamble => (0, 0)
  | .wrongEpilogue => (0, 0)
  | .abnormalLedOnBitValue t => (t, 0)
  | .abnormalLedOffBitValue t => (t, 0)
  | .checksumMismatch expected actual => (expected, actual)
  | .illegalCommand w => (w.toNat, 0)

/-- A payload member as stored in ERR_A or ERR_B: zero-extended to EW bits, and the command word of an
illegal command modulo 2^EW (R131). -/
def payloadBits (p : Params) (v : Nat) : Nat := v % 2 ^ p.ew

/-- The error a code and its payload stand for: the host's reading of STATUS.ERR, ERR_A and ERR_B
(R126, R131). None for 0 (no error) and for the codes the block never writes (V7). Of an illegal command
the word is known only modulo 2^EW. -/
def errorOfRegisters (code : BitVec 4) (a b : Nat) : Option BlockError :=
  if code = 1#4 then some .emptySequence
  else if code = 3#4 then some (.wrongTimingsNumber a b)
  else if code = 4#4 then some .wrongPreamble
  else if code = 5#4 then some .wrongEpilogue
  else if code = 6#4 then some (.abnormalLedOnBitValue a)
  else if code = 7#4 then some (.abnormalLedOffBitValue a)
  else if code = 8#4 then some (.checksumMismatch a b)
  else if code = 15#4 then some (.illegalCommand (BitVec.ofNat 32 a))
  else none

/-- The 32 bits of STATUS (R15): OP in [11:8], SAT in [5], DONE in [4], ERR in [3:0], zero elsewhere. -/
def Status.word (st : Status) : Word :=
  0#20 ++ st.op ++ 0#2 ++ BitVec.ofBool st.sat ++ BitVec.ofBool st.done ++ st.err

/-- STATUS after a command with opcode `op` that ends with code `err`: DONE becomes 1 and SAT stays
(R15, R133). -/
def Status.afterCommand (st : Status) (op err : BitVec 4) : Status :=
  { st with err := err, done := true, op := op }

end Sys2Proof.Machine
end

