-- ==== Sys2Proof/Machine/Ops.lean ====
section
/-! DEFINITION. The named operations over SEQ and the registers: reading and writing SEQ, writing the
outcome registers, ending a command in an error, PUSH's bookkeeping, reset
(spec/20_memory.md, spec/60_exceptions.md section 2, spec/45_frame_control.md, spec/70_reset_and_hazards.md). -/

namespace Sys2Proof.Machine

/-! ## The sample memory -/

/-- The entry of SEQ at an index; none where it is unwritten (R32). -/
def Memory.read : Memory → Nat → Option Nat
  | [], _ => none
  | (j, u) :: m, k => if j = k then some u else Memory.read m k

/-- `SEQ[k] <- t` (R6): the entry becomes written, and the cells stay in rising order. -/
def Memory.write : Memory → Nat → Nat → Memory
  | [], k, t => [(k, t)]
  | (j, u) :: m, k, t =>
    if k < j then (k, t) :: (j, u) :: m
    else if k = j then (k, t) :: m
    else (j, u) :: Memory.write m k t

/-- The list `SEQ[base], ..., SEQ[base+len-1]` (R6, R72), or the first unwritten index in it. -/
def Memory.slice (m : Memory) : Nat → Nat → Except Nat (List Nat)
  | _, 0 => .ok []
  | base, len + 1 =>
    match m.read base with
    | none => .error base
    | some t =>
      match Memory.slice m (base + 1) len with
      | .error k => .error k
      | .ok ts => .ok (t :: ts)

/-! ## The outcome of a command -/

/-- What every command writes: CMD takes its word (R14), and the outcome registers STATUS (ERR, DONE,
OP), RESULT, ERR_A and ERR_B are overwritten (R16). OP is `w[31:28]` (R15). -/
def State.writeOutcome (s : State) (w : Word) (err : BitVec 4) (result : BitVec 16) (a b : Nat) : State :=
  { s with
    cmd := w
    status := s.status.afterCommand (opField w) err
    result := result
    errA := payloadBits s.params a
    errB := payloadBits s.params b }

/-- A command that ends without error: RESULT is its value, ERR_A and ERR_B are 0 (R12, R13). -/
def State.succeed (s : State) (w : Word) (result : BitVec 16) : State :=
  s.writeOutcome w 0 result 0 0

/-- A command that ends in an error (R133): its code, RESULT 0 and its payload. Nothing else is written,
and there is no return operation (R136). -/
def State.raise (s : State) (w : Word) (e : BlockError) : State :=
  s.writeOutcome w e.code 0 e.payload.1 e.payload.2

/-- The outcome of an illegal command word (R134). -/
def State.illegal (s : State) (w : Word) : State :=
  s.raise w (.illegalCommand w)

/-- Ends a command with the result of its function: a value, zero-extended to RESULT's 16 bits (R12),
or an error. -/
def State.conclude (s : State) (w : Word) (r : Except BlockError Nat) : State :=
  match r with
  | .ok v => s.succeed w (BitVec.ofNat 16 v)
  | .error e => s.raise w e

/-! ## The frame -/

/-- The frame becomes empty (R110): COUNT and SAT are 0 and every entry of SEQ is unwritten. -/
def State.clearFrame (s : State) : State :=
  { s with count := 0, status := { s.status with sat := false }, seq := [] }

/-- The largest value of COUNT, 2^CW - 1 (R17). -/
def countMax (p : Params) : Nat := 2 ^ p.cw - 1

/-- Appends a timing to the frame (R111): it is stored at entry COUNT while COUNT is below 43; COUNT
advances by one, or stays at its largest value and SAT is set. -/
def State.pushSample (s : State) (t : Nat) : State :=
  { s with
    seq := if s.count < frameLen then s.seq.write s.count t else s.seq
    count := if s.count < countMax s.params then s.count + 1 else s.count
    status := { s.status with sat := if s.count < countMax s.params then s.status.sat else true } }

/-! ## Operand registers and reads -/

/-- `OPA <- v` (R112). -/
def State.setOpa (s : State) (v : Nat) : State := { s with opa := v }

/-- `OPB <- v` (R112). -/
def State.setOpb (s : State) (v : Nat) : State := { s with opb := v }

/-- A read returns a value to the host (R113, R157). -/
def State.recordRead (s : State) (v : Nat) : State := { s with reads := s.reads ++ [v] }

/-! ## Host events -/

/-- The host has issued its oldest access; the rest of the run is still to come (R36, R157). -/
def State.withPending (s : State) (rest : List HostEvent) : State := { s with pending := rest }

/-- The event RESET (R150): every register takes its reset value and every entry of SEQ becomes
unwritten. The widths are the block's build, and the run is the host's; neither is the block's state
(notes/assumptions/13.md, DESIGN CHOICE, safe). -/
def State.resetBlock (s : State) : State := { s with toBlock := Block.reset }

/-- What an access that is no operation does: an illegal command word has its outcome (R134), a write to
a read-only register changes nothing (R10), and an access outside the interface gets no step (R10). -/
def rejectAccess (r : Reject) (s : State) : Result :=
  match r with
  | .illegalWord w _ => .next (s.illegal w)
  | .readOnly _ => .next s
  | .noRegister i => .refused (.noSuchRegister i)
  | .tooWide reg v => .refused (.valueTooWide reg v)

end Sys2Proof.Machine
end

