-- ==== Sys2Proof/Machine/Operands.lean ====
section
/-! DEFINITION. Where operations take their operands from: registers, slices of SEQ, values written
(spec/30_encoding.md rule R43; spec/10_state.md rules R11, R18; spec/42_value_reconstructor.md rules R72, R73). -/

namespace Sys2Proof.Machine

/-- The value a register read returns, at its full width (R113). SAMPLE is a port and reads 0 (R18). -/
def readReg (s : State) : Reg → Nat
  | .cmd => s.cmd.toNat
  | .status => s.status.word.toNat
  | .sample => 0
  | .count => s.count
  | .opa => s.opa
  | .opb => s.opb
  | .result => s.result.toNat
  | .errA => s.errA
  | .errB => s.errB

/-- CHKSUM's operand `OPA[15:0]`; the upper bits are ignored (R11, R43). -/
def chksumOperand (s : State) : BitVec 16 := BitVec.ofNat 16 s.opa

/-- The number of written entries of SEQ, min(COUNT, 43) (R32). -/
def writtenLen (s : State) : Nat := min s.count frameLen

/-- DECVAL's operands are illegal (R44 items 3 and 4, R73): more than 16 bits, or a slice that reaches
past the written entries. `base + len` is exact, not modulo 256. -/
def illegalSlice (s : State) (base len bits : BitVec 8) : Bool :=
  decide (dataBits < bits.toNat) || decide (writtenLen s < base.toNat + len.toNat)

/-- Reads a slice of SEQ and goes on with it. A slice with an unwritten entry, which no state a run
reaches lets an operation read (R32), is a fault (V5). -/
def withSlice (s : State) (base len : Nat) (k : List Nat → State) : Result :=
  match s.seq.slice base len with
  | .ok ts => .next (k ts)
  | .error i => .fault (.unwrittenSample i)

/-- A data write of a TW-bit value (R45): a value wider than the register is outside the interface and
gets no step (R10, V8). -/
def withTiming (s : State) (r : Reg) (v : Nat) (k : State) : Result :=
  if s.params.fitsTiming v then .next k else .refused (.valueTooWide r v)

end Sys2Proof.Machine
end

