-- ==== Sys2Proof/Machine/FrameControl.lean ====
section
/-! DEFINITION. Frame control and data movement: CLEAR, PUSH, SETA, SETB and RD
(spec/45_frame_control.md rules R110 to R114). -/

namespace Sys2Proof.Machine

/-- CLEAR (R110). -/
def execClear (s : State) : Result := .next (s.clearFrame.succeed clearWord 0)

/-- PUSH t (R111). -/
def execPush (t : Nat) (s : State) : Result := withTiming s .sample t (s.pushSample t)

/-- SETA v (R112). -/
def execSeta (v : Nat) (s : State) : Result := withTiming s .opa v (s.setOpa v)

/-- SETB v (R112). -/
def execSetb (v : Nat) (s : State) : Result := withTiming s .opb v (s.setOpb v)

/-- RD r (R113): the host gets the register's value; no register and no entry of SEQ changes. -/
def execRd (r : Reg) (s : State) : Result := .next (s.recordRead (readReg s r))

end Sys2Proof.Machine
end

