-- ==== Sys2Proof/Machine/Classifier.lean ====
section
/-! DEFINITION. The timing_classifier and the command CLASSIFY
(spec/40_timing_classifier.md rules R50 to R54). -/

namespace Sys2Proof.Machine

/-- `is_timing_valid(t, m)` (R51): the closed window of 25 percent around 480 times the multiplier; false
for the multiplier 0. All arithmetic is exact. -/
def isTimingValid (t m : Nat) : Bool :=
  if m = 0 then false
  else
    let etalon := baseUnit * m
    let tolerance := etalon * tolerancePercent / 100
    decide (etalon - tolerance ≤ t) && decide (t ≤ etalon + tolerance)

/-- CLASSIFY m (R50). -/
def execClassify (m : BitVec 8) (s : State) : Result :=
  .next (s.succeed (classifyWord m) (BitVec.ofNat 16 (isTimingValid s.opa m.toNat).toNat))

end Sys2Proof.Machine
end

