-- ==== Sys2Proof/Machine/PulsePair.lean ====
section
/-! DEFINITION. The pulse_pair_to_bit converter and the command DECBIT
(spec/41_pulse_pair_to_bit.md rules R60 to R64). -/

namespace Sys2Proof.Machine

/-- `decode_bit(on, off)` (R61): the mark is tested before the space (R63). -/
def decodeBit (on off : Nat) : Except BlockError Bool :=
  if !isTimingValid on mMark then .error (.abnormalLedOnBitValue on)
  else if isTimingValid off mSpace0 then .ok false
  else if isTimingValid off mSpace1 then .ok true
  else .error (.abnormalLedOffBitValue off)

/-- DECBIT (R60). -/
def execDecbit (s : State) : Result :=
  .next (s.conclude decbitWord ((decodeBit s.opa s.opb).map Bool.toNat))

end Sys2Proof.Machine
end

