-- ==== Sys2Proof/Machine/ValueReconstructor.lean ====
section
/-! DEFINITION. The multi_bit_value_reconstructor and the command DECVAL
(spec/42_value_reconstructor.md rules R70 to R76). -/

namespace Sys2Proof.Machine

/-- Step 3 of R71 from pair `i` on: a bit 1 is or-ed into position `n - 1 - i` of the accumulator, and
the first bad pair ends the decode. -/
def decodePairs (n : Nat) : List Nat → Nat → Nat → Except BlockError Nat
  | on :: off :: ts, i, acc =>
    match decodeBit on off with
    | .error e => .error e
    | .ok true => decodePairs n ts (i + 1) (acc ||| 1 <<< (n - 1 - i))
    | .ok false => decodePairs n ts (i + 1) acc
  | _, _, acc => .ok acc

/-- `decode_value(ts, n)` (R71): the length is tested before any timing. -/
def decodeValue (ts : List Nat) (n : Nat) : Except BlockError Nat :=
  if ts.length ≠ 2 * n then .error (.wrongTimingsNumber (2 * n) ts.length)
  else decodePairs n ts 0 0

/-- DECVAL base, len, bits (R70, R72, R73). -/
def execDecval (base len bits : BitVec 8) (s : State) : Result :=
  if illegalSlice s base len bits then .next (s.illegal (decvalWord base len bits))
  else withSlice s base.toNat len.toNat fun ts =>
    s.conclude (decvalWord base len bits) (decodeValue ts bits.toNat)

end Sys2Proof.Machine
end

