-- ==== Sys2Proof/Machine/ChecksumEngine.lean ====
section
/-! DEFINITION. The nibble_sum_checksum_engine and the command CHKSUM
(spec/43_checksum_engine.md rules R80 to R84). -/

namespace Sys2Proof.Machine

/-- Nibble k of a value, nibble 0 the least significant (R81). -/
def nibble (d : BitVec 16) (k : Nat) : BitVec 8 := (d >>> (4 * k)).setWidth 8 &&& 0x0F#8

/-- `calculate_checksum(d)` (R81): the four nibbles are summed modulo 2^8, and the low 4 bits of the sum
are the checksum. -/
def calculateChecksum (d : BitVec 16) : BitVec 4 :=
  (0#8 + nibble d 0 + nibble d 1 + nibble d 2 + nibble d 3).setWidth 4

/-- CHKSUM (R80). -/
def execChksum (s : State) : Result :=
  .next (s.succeed chksumWord ((calculateChecksum (chksumOperand s)).setWidth 16))

end Sys2Proof.Machine
end

