-- ==== Sys2Proof/Machine/FrameDecoder.lean ====
section
/-! DEFINITION. The frame decoder and the command DECODE
(spec/44_frame_decoder.md rules R90 to R103). -/

namespace Sys2Proof.Machine

/-- The region `ts[lo .. lo+len)` of a frame (R31). -/
def region (ts : List Nat) (lo len : Nat) : List Nat := (ts.drop lo).take len

/-- The timing `ts[k]` is valid for a multiplier; a frame that lacks it has no valid one. -/
def timingAtValid (ts : List Nat) (k m : Nat) : Bool :=
  match ts[k]? with
  | some t => isTimingValid t m
  | none => false

/-- Steps 1 and 3 of R91, which look at the number of timings alone. -/
def countGate (n : Nat) : Except BlockError Unit :=
  if n = 0 then .error .emptySequence
  else if n ≠ frameLen then .error (.wrongTimingsNumber frameLen n)
  else .ok ()

/-- Steps 8 to 10 of R91: the checksum extracted from the frame against the one computed from the data. -/
def checksumGate (expected data : Nat) : Except BlockError Nat :=
  if expected ≠ (calculateChecksum (BitVec.ofNat 16 data)).toNat then
    .error (.checksumMismatch expected (calculateChecksum (BitVec.ofNat 16 data)).toNat)
  else .ok data

/-- Steps 4 to 10 of R91: preamble, epilogue, checksum region, data region, comparison. The checksum
region is decoded first (R99). -/
def contentGates (ts : List Nat) : Except BlockError Nat :=
  if !(timingAtValid ts 0 mPre0 && timingAtValid ts 1 mPre1) then .error .wrongPreamble
  else if !timingAtValid ts epiLo mEpi then .error .wrongEpilogue
  else
    match decodeValue (region ts chkLo chkLen) chkBits with
    | .error e => .error e
    | .ok expected =>
      match decodeValue (region ts dataLo dataLen) dataBits with
      | .error e => .error e
      | .ok data => checksumGate expected data

/-- `decode_frame(ts)` (R91): the gates in their fixed order, the first failure ends it (R93). -/
def decodeFrame (ts : List Nat) : Except BlockError Nat :=
  match countGate ts.length with
  | .error e => .error e
  | .ok () => contentGates ts

/-- DECODE (R90, R92, R94): illegal under SAT; a count other than 43 is judged without reading SEQ; a
count of 43 decodes the 43 entries of SEQ, which stay as they are. -/
def execDecode (s : State) : Result :=
  if s.status.sat then .next (s.illegal decodeWord)
  else
    match countGate s.count with
    | .error e => .next (s.raise decodeWord e)
    | .ok () => withSlice s 0 frameLen fun ts => s.conclude decodeWord (decodeFrame ts)

end Sys2Proof.Machine
end

