-- ==== Sys2Proof/Machine/Dispatch.lean ====
section
/-! DEFINITION. Each operation to its meaning. -/

namespace Sys2Proof.Machine

def exec (i : Instr) (s : State) : Host.Outcome State Fault Refusal :=
  match i with
  | .clear => Sys2Proof.Machine.execClear s
  | .classify m => Sys2Proof.Machine.execClassify m s
  | .decbit => Sys2Proof.Machine.execDecbit s
  | .decval base len bits => Sys2Proof.Machine.execDecval base len bits s
  | .chksum => Sys2Proof.Machine.execChksum s
  | .decode => Sys2Proof.Machine.execDecode s
  | .push t => Sys2Proof.Machine.execPush t s
  | .seta v => Sys2Proof.Machine.execSeta v s
  | .setb v => Sys2Proof.Machine.execSetb v s
  | .rd r => Sys2Proof.Machine.execRd r s

end Sys2Proof.Machine
end

