-- ==== Sys2Proof/Machine/HostAccess.lean ====
section
/-! DEFINITION. A host access, performed (spec/30_encoding.md rule R40; spec/10_state.md rule R10). -/

namespace Sys2Proof.Machine

/-- A host access: the operation it decodes to, or what an access that is no operation does. -/
def performAccess (a : Access) (s : State) : Host.Outcome State Fault Refusal :=
  match decode s.params a with
  | .ok i => exec i s
  | .error r => rejectAccess r s

end Sys2Proof.Machine
end

