-- ==== Sys2Proof/Machine/Step.lean ====
section
/-! DEFINITION. One step of the machine: the host's next access or reset event, taken completely
(spec/70_reset_and_hazards.md rules R156, R157; spec/30_encoding.md rule R40). -/

namespace Sys2Proof.Machine

/-- One transition (R156). With no access pending the block is idle and its state stays as it is. -/
def step (s : State) : Host.Outcome State Fault Refusal :=
  match s.pending with
  | [] => .next s
  | .reset :: rest => .next (s.withPending rest).resetBlock
  | .access a :: rest => performAccess a (s.withPending rest)

/-- The state in which the host is about to issue the access of a table word
(notes/assumptions/6.md). -/
def State.withFetchWord (s : State) (nbits w : Nat) : State :=
  s.withPending (.access (tableAccess nbits w) :: s.pending)

end Sys2Proof.Machine
end

