-- ==== Sys2Proof/Machine/Build.lean ====
section
/-! DEFINITION. The machine with the widths TW and CW as its argument (spec/10_state.md rule R23;
spec/00_scope.md rule R5). Its state holds no width. -/

namespace Sys2Proof.Machine

/-- One transition of the block built with the widths `p`: `step` under that argument. -/
def machineStep (p : Params) (c : Session) : Host.Outcome Session Fault Refusal :=
  match step (c.atWidths p) with
  | .next t => .next t.toSession
  | .fault f => .fault f
  | .refused r => .refused r

/-- The machine built with the widths `p`. `core` is all of these machines taken together, each state beside
the widths it belongs to, with the reset of the default build. -/
def machine (p : Params) : Host.Core :=
  { State := Session
    Fault := Fault
    Refusal := Refusal
    step := machineStep p
    reset := Session.reset }

end Sys2Proof.Machine
end

