-- ==== Sys2Proof/Machine/Etalon.lean ====
section
/-! DEFINITION. The ideal transmission of a value, every timing at its etalon: what statements about the
decoder compare frames with. The block itself never encodes
(spec/20_memory.md rule R31; spec/30_encoding.md rule R47; spec/95_test_vectors.md S10 and section 6). -/

namespace Sys2Proof.Machine

/-- The pulse pair of a bit (R47): a mark of 1 base unit, a space of 1 or 3. -/
def etalonPair (b : Bool) : List Nat := [480, if b then 1440 else 480]

/-- The pulse pairs of an n-bit value, most significant bit first (S10). -/
def etalonTimings (v n : Nat) : List Nat :=
  (List.range n).flatMap fun i => etalonPair (v.testBit (n - 1 - i))

/-- The ideal frame of a 16-bit value (R31, R47): preamble, data, checksum, epilogue. -/
def etalonFrame (d : BitVec 16) : List Nat :=
  [8640, 3840] ++ etalonTimings d.toNat 16 ++ etalonTimings (calculateChecksum d).toNat 4 ++ [480]

/-- Each timing is within 25 percent of its etalon, both bounds included (R4). -/
def withinTolerance (ts etalons : List Nat) : Prop :=
  ts.length = etalons.length ∧
  ∀ k, k < etalons.length → 3 * etalons.getD k 0 ≤ 4 * ts.getD k 0 ∧ 4 * ts.getD k 0 ≤ 5 * etalons.getD k 0

end Sys2Proof.Machine
end

