-- ==== Sys2Proof/Machine/HostShell.lean ====
section
/-! DEFINITION. The host shell, the software around the block: the pure function decode_text
(spec/46_host_shell.md rules R120 to R127). It is no part of the machine's state or step. -/

namespace Sys2Proof.Machine

/-- A failure of the shell: a token that does not parse, carried as it stands and with nothing more
(R123), or an error of the frame decoder, unchanged (R126). No message text is rendered (R127). -/
inductive ShellError where
  | parseFailure (token : List Char)
  | frame (e : BlockError)
  deriving DecidableEq, Repr

/-- The code of a failure in the host's copy of the error taxonomy: 2 for a parse failure (R124, R130). -/
def ShellError.code : ShellError → BitVec 4
  | .parseFailure _ => 2
  | .frame e => e.code

/-- The six ASCII white-space characters (R121). -/
def isWhitespace (c : Char) : Bool :=
  c.toNat = 0x20 || c.toNat = 0x09 || c.toNat = 0x0A || c.toNat = 0x0B || c.toNat = 0x0C || c.toNat = 0x0D

/-- Ends the token read so far (in reverse); an empty one is no token (R121). -/
def endToken (token : List Char) (rest : List (List Char)) : List (List Char) :=
  if token.isEmpty then rest else token.reverse :: rest

/-- The tokens of a line, with the characters of the one being read in reverse. -/
def tokensFrom : List Char → List Char → List (List Char)
  | [], token => endToken token []
  | c :: cs, token =>
    if isWhitespace c then endToken token (tokensFrom cs []) else tokensFrom cs (c :: token)

/-- The maximal runs of non-white-space characters of a line (R121). -/
def tokens (line : List Char) : List (List Char) := tokensFrom line []

/-- The value of an ASCII decimal digit (R123). -/
def digitValue (c : Char) : Option Nat :=
  if 0x30 ≤ c.toNat ∧ c.toNat ≤ 0x39 then some (c.toNat - 0x30) else none

/-- The value of a run of decimal digits after `acc`; none where a character is no digit. -/
def decimalValue : List Char → Nat → Option Nat
  | [], acc => some acc
  | c :: cs, acc =>
    match digitValue c with
    | some d => decimalValue cs (10 * acc + d)
    | none => none

/-- A token parses when it is one or more digits and its value is below 2^TW (R123). -/
def parseToken (tw : Nat) (token : List Char) : Option Nat :=
  if token.isEmpty then none
  else
    match decimalValue token 0 with
    | some v => if v < 2 ^ tw then some v else none
    | none => none

/-- Parses tokens from left to right; the first bad one ends it (R123). -/
def parseTokens (tw : Nat) : List (List Char) → Except ShellError (List Nat)
  | [] => .ok []
  | token :: rest =>
    match parseToken tw token with
    | none => .error (.parseFailure token)
    | some t =>
      match parseTokens tw rest with
      | .error e => .error e
      | .ok ts => .ok (t :: ts)

/-- A lowercase hexadecimal digit (R125). -/
def hexDigit (n : BitVec 4) : Char :=
  if n.toNat < 10 then Char.ofNat (0x30 + n.toNat) else Char.ofNat (0x61 + (n.toNat - 10))

/-- Exactly four lowercase hexadecimal digits, the most significant first (R125). -/
def hex4 (d : BitVec 16) : List Char :=
  [hexDigit (d.extractLsb' 12 4), hexDigit (d.extractLsb' 8 4), hexDigit (d.extractLsb' 4 4),
    hexDigit (d.extractLsb' 0 4)]

/-- `decode_text(line)` (R126): all tokens are parsed before any is counted (R124). -/
def decodeText (tw : Nat) (line : List Char) : Except ShellError (List Char) :=
  if (tokens line).isEmpty then .error (.frame .emptySequence)
  else
    match parseTokens tw (tokens line) with
    | .error e => .error e
    | .ok ts =>
      match decodeFrame ts with
      | .error e => .error (.frame e)
      | .ok d => .ok (hex4 (BitVec.ofNat 16 d))

end Sys2Proof.Machine
end

