-- ==== Sys2Proof/Machine/Script.lean ====
section
/-! DEFINITION. The host's script notation and its pseudo-operations, and the outcome as the host reads it
(spec/30_encoding.md rule R46; spec/45_frame_control.md rule R114; spec/46_host_shell.md rule R126). -/

namespace Sys2Proof.Machine

/-- The line of a script that asks for an operation (R46). -/
def issue (i : Instr) : HostEvent := .access (encode i)

/-- `CMDW w`: a raw command word (R46). -/
def cmdwLine (w : Word) : HostEvent := .access (.write 0 w.toNat)

/-- `FRAME t0 t1 ...`: CLEAR, one PUSH per timing, DECODE (R46). -/
def frameScript (ts : List Nat) : List HostEvent :=
  issue .clear :: (ts.map fun t => issue (.push t)) ++ [issue .decode]

/-- `VALID t, m` (R46). -/
def validScript (t : Nat) (m : BitVec 8) : List HostEvent :=
  [issue (.seta t), issue (.classify m), issue (.rd .result)]

/-- `BIT on, off` (R46). -/
def bitScript (on off : Nat) : List HostEvent :=
  [issue (.seta on), issue (.setb off), issue .decbit, issue (.rd .status), issue (.rd .result)]

/-- `SUM d` (R46). -/
def sumScript (d : Nat) : List HostEvent :=
  [issue (.seta d), issue .chksum, issue (.rd .result)]

/-- `OUTCOME`: the four outcome registers (R46). -/
def outcomeScript : List HostEvent :=
  [issue (.rd .status), issue (.rd .result), issue (.rd .errA), issue (.rd .errB)]

/-- The result a host reads from the outcome registers (R114, R126): RESULT where a command has succeeded
(DONE = 1 and ERR = 0, R15), the error of the code and its payload otherwise. -/
def outcomeOf (s : State) : Option (Except BlockError Nat) :=
  if s.status.err = 0 then
    if s.status.done then some (.ok s.result.toNat) else none
  else (errorOfRegisters s.status.err s.errA s.errB).map .error

end Sys2Proof.Machine
end

