-- ==== Sys2Proof/Safety.lean ====
section
/-! DEFINITION. What holds of every state a run reaches, and what a safe step is
(spec/10_state.md rules R10 to R17; spec/20_memory.md rule R32; spec/60_exceptions.md rules R130, R131). -/

namespace Sys2Proof.Machine

/-- The codes the block may hold in STATUS.ERR: 2 and 9 to 14 are never written (R130, V7). -/
def blockCodes : List (BitVec 4) := [0, 1, 3, 4, 5, 6, 7, 8, 15]

/-- The registers and SEQ hold what the spec says they can hold. -/
structure State.Inv (s : State) : Prop where
  /-- TW is at least 16 and CW at least 6 (R5). -/
  widths : s.params.wf
  /-- COUNT is CW bits (R17). -/
  countFits : s.count < 2 ^ s.params.cw
  /-- OPA is TW bits (R11). -/
  opaFits : s.opa < 2 ^ s.params.tw
  /-- OPB is TW bits (R11). -/
  opbFits : s.opb < 2 ^ s.params.tw
  /-- ERR_A is EW bits (R13). -/
  errAFits : s.errA < 2 ^ s.params.ew
  /-- ERR_B is EW bits (R13). -/
  errBFits : s.errB < 2 ^ s.params.ew
  /-- The written entries of SEQ are exactly 0 to min(COUNT,43) - 1, in rising order (R32). -/
  written : s.seq.map Prod.fst = List.range (writtenLen s)
  /-- Every entry of SEQ is TW bits (R30). -/
  samplesFit : ∀ c ∈ s.seq, c.2 < 2 ^ s.params.tw
  /-- SAT is set only by a PUSH that finds COUNT at its largest value, and COUNT stays there (R111). -/
  satAtMax : s.status.sat = true → s.count = countMax s.params
  /-- STATUS.OP is `w[31:28]` of the last command word, which CMD holds (R14, R15). -/
  opOfCmd : s.status.op = opField s.cmd
  /-- STATUS.ERR is 0 or a code of R130 that the block writes. -/
  codeLegal : s.status.err ∈ blockCodes
  /-- On an error RESULT is 0 (R12). -/
  errorNoResult : s.status.err ≠ 0 → s.result = 0
  /-- Without an error ERR_A and ERR_B are 0 (R13). -/
  successNoPayload : s.status.err = 0 → s.errA = 0 ∧ s.errB = 0
  /-- DONE is 0 only between reset and the first command (R15, R22). -/
  beforeFirst : s.status.done = false → s.cmd = 0 ∧ s.status.err = 0 ∧ s.result = 0

/-- The code in STATUS.ERR is one that the command in STATUS.OP can raise, and ERR_A and ERR_B hold a
payload that the code can carry (R130, R131). -/
structure State.OutcomeInv (s : State) : Prop where
  /-- EmptySequence: DECODE only, no payload. -/
  empty : s.status.err = 1 → s.status.op = 6 ∧ s.errA = 0 ∧ s.errB = 0
  /-- WrongTimingsNumber: from DECODE 43 and a count that is neither 0 nor 43; from DECVAL `2*bits` and a
  `len` that differs from it. -/
  count : s.status.err = 3 →
    (s.status.op = 6 ∧ s.errA = 43 ∧ s.errB ≠ 0 ∧ s.errB ≠ 43) ∨
    (s.status.op = 4 ∧ s.errA % 2 = 0 ∧ s.errA ≤ 32 ∧ s.errB ≤ 43 ∧ s.errB ≠ s.errA)
  /-- WrongPreamble: DECODE only, no payload. -/
  preamble : s.status.err = 4 → s.status.op = 6 ∧ s.errA = 0 ∧ s.errB = 0
  /-- WrongEpilogue: DECODE only, no payload. -/
  epilogue : s.status.err = 5 → s.status.op = 6 ∧ s.errA = 0 ∧ s.errB = 0
  /-- AbnormalLedOnBitValue: a TW-bit timing outside [360, 600]. -/
  mark : s.status.err = 6 →
    (s.status.op = 3 ∨ s.status.op = 4 ∨ s.status.op = 6) ∧ s.errA < 2 ^ s.params.tw ∧
    ¬(360 ≤ s.errA ∧ s.errA ≤ 600) ∧ s.errB = 0
  /-- AbnormalLedOffBitValue: a TW-bit timing outside [360, 600] and [1080, 1800]. -/
  space : s.status.err = 7 →
    (s.status.op = 3 ∨ s.status.op = 4 ∨ s.status.op = 6) ∧ s.errA < 2 ^ s.params.tw ∧
    ¬(360 ≤ s.errA ∧ s.errA ≤ 600) ∧ ¬(1080 ≤ s.errA ∧ s.errA ≤ 1800) ∧ s.errB = 0
  /-- ChecksumMismatch: DECODE only, two different 4-bit values. -/
  checksum : s.status.err = 8 → s.status.op = 6 ∧ s.errA < 16 ∧ s.errB < 16 ∧ s.errA ≠ s.errB
  /-- ILLEGAL_COMMAND: the command word modulo 2^EW. -/
  illegal : s.status.err = 15 → s.errA = s.cmd.toNat % 2 ^ s.params.ew ∧ s.errB = 0

/-- A step that does not fault. -/
def State.stepSafe (s : State) : Prop := ∀ f, step s ≠ .fault f

/-- The access is of the interface: its index is 0 to 8 and its value fits the register (R10). -/
def accessInside (p : Params) : Access → Prop
  | .read i => i ≤ 8
  | .write i v => ∃ r, regAt i = some r ∧ v < 2 ^ r.width p

/-- What a command leaves (R16, R133): its word in CMD, its code, DONE and its opcode in STATUS, a value in
RESULT and a payload in ERR_A and ERR_B; everything else as it was. Statements use it with the values the
rules give. -/
def State.commandOutcome (s : State) (w : Word) (op err : BitVec 4) (result : BitVec 16) (a b : Nat) : State :=
  { s with
    cmd := w
    status := { err := err, done := true, sat := s.status.sat, op := op }
    result := result
    errA := a
    errB := b }

/-- The commands that only judge what the block holds: all but CLEAR. -/
def isJudgement : Instr → Bool
  | .clear => false
  | .classify _ => true
  | .decbit => true
  | .decval _ _ _ => true
  | .chksum => true
  | .decode => true
  | .push _ => false
  | .seta _ => false
  | .setb _ => false
  | .rd _ => false

/-- A command word is illegal (R44 items 1 to 5), told from its bits and the state alone. -/
abbrev commandIllegal (s : State) (w : Word) : Prop :=
  w.extractLsb' 28 4 = 0#4 ∨ 7 ≤ (w.extractLsb' 28 4).toNat ∨
  w.extractLsb' 24 4 ≠ 0#4 ∨
  ((w.extractLsb' 28 4 = 1#4 ∨ w.extractLsb' 28 4 = 3#4 ∨ w.extractLsb' 28 4 = 5#4 ∨
      w.extractLsb' 28 4 = 6#4) ∧ w.extractLsb' 0 24 ≠ 0#24) ∨
  (w.extractLsb' 28 4 = 2#4 ∧ w.extractLsb' 8 16 ≠ 0#16) ∨
  (w.extractLsb' 28 4 = 4#4 ∧ 16 < (w.extractLsb' 16 8).toNat) ∨
  (w.extractLsb' 28 4 = 4#4 ∧
    min s.count 43 < (w.extractLsb' 0 8).toNat + (w.extractLsb' 8 8).toNat) ∨
  (w.extractLsb' 28 4 = 6#4 ∧ s.status.sat = true)

end Sys2Proof.Machine
end

