-- ==== Sys2Proof/Certificates/Slice0/Obligations.lean ====
section
/-! DEFINITION. What the provers are asked to settle, in the order of the spec's files: the interface and
its encoding, the sub-blocks with their commands, frame control, the invariants, the whole run, the shell.
Many rules carry a tag of their own, a decision (spec/92_eei_decisions.md) or a derivation from other rules:
they are the spec's choices and inferences, and OBLIGATIONS.json names the decisions beside each statement. -/

open Sys2Proof Sys2Proof.Machine

/-! ## Encoding -/

/-- R42, R45, R46: a few words and accesses, written out from the spec's tables, and what they ask for. -/
def Obligations.SpecWordsDecode : Prop :=
  decodeCommand 0x10000000#32 = .ok .clear ∧
  decodeCommand 0x20000012#32 = .ok (.classify 18#8) ∧
  decodeCommand 0x30000000#32 = .ok .decbit ∧
  decodeCommand 0x40102002#32 = .ok (.decval 2#8 32#8 16#8) ∧
  decodeCommand 0x50000000#32 = .ok .chksum ∧
  decodeCommand 0x60000000#32 = .ok .decode ∧
  decode Params.default (.write 2 8532) = .ok (.push 8532) ∧
  decode Params.default (.write 4 402) = .ok (.seta 402) ∧
  decode Params.default (.write 5 550) = .ok (.setb 550) ∧
  decode Params.default (.read 6) = .ok (.rd .result)

/-- R42, R43, R45: decoding the access that encodes a well-formed operation gives the operation back, with
every operand, at any widths. -/
def Obligations.DecodeInvertsEncode : Prop :=
  ∀ (p : Params) (i : Instr), i.wellFormed p = true → decode p (encode i) = .ok i

/-- R42, R43, R45: an access that decodes to an operation is the one that encodes it, and the operation is
well-formed: no bit of the access is dropped and no two accesses mean the same operation. -/
def Obligations.EncodeInvertsDecode : Prop :=
  ∀ (p : Params) (a : Access) (i : Instr), decode p a = .ok i → encode i = a ∧ i.wellFormed p = true

/-- R42: a word decodes to the command of a row exactly when `w & mask` is the row's word, and to no command
exactly when no row selects it; no word is selected by two rows. -/
def Obligations.OpcodeRowsSelectCommands : Prop :=
  ∀ w : Word,
    (w &&& 0xFFFFFFFF#32 = 0x10000000#32 ↔ decodeCommand w = .ok .clear) ∧
    (w &&& 0xFFFFFF00#32 = 0x20000000#32 ↔ ∃ m, decodeCommand w = .ok (.classify m)) ∧
    (w &&& 0xFFFFFFFF#32 = 0x30000000#32 ↔ decodeCommand w = .ok .decbit) ∧
    (w &&& 0xFF000000#32 = 0x40000000#32 ↔ ∃ a b c, decodeCommand w = .ok (.decval a b c)) ∧
    (w &&& 0xFFFFFFFF#32 = 0x50000000#32 ↔ decodeCommand w = .ok .chksum) ∧
    (w &&& 0xFFFFFFFF#32 = 0x60000000#32 ↔ decodeCommand w = .ok .decode) ∧
    ((∃ why, decodeCommand w = .error why) ↔ ∀ row ∈ opcodeRows, ¬ row.selects w) ∧
    (∀ r₁ ∈ opcodeRows, ∀ r₂ ∈ opcodeRows, r₁.selects w → r₂.selects w → r₁ = r₂)

/-- R44 items 1 and 2, in their order: the opcode is tested before the fields that must be 0. -/
def Obligations.IllegalWordReason : Prop :=
  ∀ w : Word,
    (decodeCommand w = .error .reservedOpcode ↔
      w.extractLsb' 28 4 = 0#4 ∨ 7 ≤ (w.extractLsb' 28 4).toNat) ∧
    (decodeCommand w = .error .nonzeroField ↔
      ((w.extractLsb' 28 4 = 1#4 ∨ w.extractLsb' 28 4 = 3#4 ∨ w.extractLsb' 28 4 = 5#4 ∨
          w.extractLsb' 28 4 = 6#4) ∧ w.extractLsb' 0 28 ≠ 0#28) ∨
      (w.extractLsb' 28 4 = 2#4 ∧ w.extractLsb' 8 20 ≠ 0#20) ∨
      (w.extractLsb' 28 4 = 4#4 ∧ w.extractLsb' 24 4 ≠ 0#4))

/-! ## Host accesses and reset -/

/-- R36, R40, R156: when the next access decodes to an operation, the step is that operation's, taken whole,
in the state from which the access has gone. -/
def Obligations.StepRunsDecodedInstruction : Prop :=
  ∀ (s : State) (a : Access) (rest : List HostEvent) (i : Instr),
    s.pending = .access a :: rest → decode s.params a = .ok i →
    step s = exec i { s with pending := rest }

/-- R141, R156: with no access pending the block takes no step of its own; its state survives idleness. That
the model's step then answers the same state is log entry 8 (DEDUCED). -/
def Obligations.IdleBlockKeepsState : Prop :=
  ∀ s : State, s.pending = [] → step s = .next s

/-- R22: what reset leaves. Every register reads 0 (SAMPLE too), the fields of STATUS are 0, and no entry of
SEQ is written. -/
def Obligations.ResetStateValues : Prop :=
  (∀ r : Reg, readReg State.reset r = 0) ∧
  State.reset.status = { err := 0, done := false, sat := false, op := 0 } ∧
  ∀ k, State.reset.seq.read k = none

/-- R150: from any state RESET gives every register its reset value 0 and makes every entry of SEQ
unwritten. -/
def Obligations.ResetEventRestoresReset : Prop :=
  ∀ (s : State) (rest : List HostEvent), s.pending = .reset :: rest →
    ∃ t, step s = .next t ∧ (∀ r : Reg, readReg t r = 0) ∧
      t.status = { err := 0, done := false, sat := false, op := 0 } ∧ ∀ k, t.seq.read k = none

/-- The model's choice (log entries 1, 2 and 3, DESIGN CHOICE): RESET is the block's alone. The state it
leaves is the one after reset but for the widths the block was built with, the rest of the host's run and the
values already read. -/
def Obligations.ResetEventKeepsBuildAndRun : Prop :=
  ∀ (s : State) (rest : List HostEvent), s.pending = .reset :: rest →
    step s = .next { State.reset with params := s.params, pending := rest, reads := s.reads }

/-- R10: a write that fits a read-only register is ignored: no register and no entry of SEQ changes. -/
def Obligations.ReadOnlyWriteIgnored : Prop :=
  ∀ (s : State) (rest : List HostEvent) (r : Reg) (v : Nat),
    r = .status ∨ r = .count ∨ r = .result ∨ r = .errA ∨ r = .errB →
    v < 2 ^ r.width s.params → s.pending = .access (.write r.index v) :: rest →
    step s = .next { s with pending := rest }

/-- R10 with V6 and V8: an index above 8 and a value wider than its register are outside the interface; the
access is refused by name, as a step and, for the data writes, as an operation. That a value too wide for a
read-only register is refused, and not ignored as R10 has it of writes to such registers, is the model's choice
(log entry 7, DESIGN CHOICE: the width is tested first). -/
def Obligations.OutsideAccessRefused : Prop :=
  (∀ (s : State) (rest : List HostEvent) (i : Nat), 8 < i →
    (s.pending = .access (.read i) :: rest → step s = .refused (.noSuchRegister i)) ∧
    (∀ v, s.pending = .access (.write i v) :: rest → step s = .refused (.noSuchRegister i))) ∧
  (∀ (s : State) (rest : List HostEvent) (r : Reg) (v : Nat), 2 ^ r.width s.params ≤ v →
    s.pending = .access (.write r.index v) :: rest → step s = .refused (.valueTooWide r v)) ∧
  (∀ (s : State) (v : Nat), 2 ^ s.params.tw ≤ v →
    exec (.push v) s = .refused (.valueTooWide .sample v) ∧
    exec (.seta v) s = .refused (.valueTooWide .opa v) ∧
    exec (.setb v) s = .refused (.valueTooWide .opb v))

/-- R44, R134: a command word that is illegal by any of the five items of R44, in any state, leaves the word
in CMD, ERR 15, DONE, its opcode, RESULT 0, the word modulo 2^EW in ERR_A and 0 in ERR_B, and changes nothing
else. -/
def Obligations.IllegalCommandOutcome : Prop :=
  ∀ (s : State) (rest : List HostEvent) (w : Word),
    s.pending = .access (.write 0 w.toNat) :: rest → commandIllegal s w →
    step s = .next (State.commandOutcome { s with pending := rest } w (w.extractLsb' 28 4) 15 0
      (w.toNat % 2 ^ s.params.ew) 0)

/-- R44: a command word that none of the five items of R44 makes illegal never ends in ILLEGAL_COMMAND. -/
def Obligations.LegalCommandNotIllegal : Prop :=
  ∀ (s t : State) (rest : List HostEvent) (w : Word),
    s.pending = .access (.write 0 w.toNat) :: rest → ¬ commandIllegal s w →
    step s = .next t → t.status.err ≠ 15

/-! ## timing_classifier -/

/-- R52, with the document's property quoted there: the closed window from 360 m to 600 m, which is the
distance of at most a quarter of 480 m from 480 m, and nothing for the multiplier 0. -/
def Obligations.ClassifierWindow : Prop :=
  (∀ t m : Nat, isTimingValid t m = true ↔ 1 ≤ m ∧ 360 * m ≤ t ∧ t ≤ 600 * m) ∧
  (∀ t m : Nat, 1 ≤ m → (isTimingValid t m = true ↔ 4 * |(t : Int) - 480 * m| ≤ 480 * m)) ∧
  (∀ m : Nat, 1 ≤ m → isTimingValid (360 * m - 1) m = false ∧ isTimingValid (600 * m + 1) m = false) ∧
  (∀ t : Nat, isTimingValid t 0 = false)

/-- R50: CLASSIFY completes on every multiplier in every state, with 1 in RESULT exactly inside the window. -/
def Obligations.ClassifyCompletes : Prop :=
  ∀ (m : BitVec 8) (s : State),
    exec (.classify m) s = .next (s.commandOutcome (0x20000000#32 + m.setWidth 32) 2 0
      (if 1 ≤ m.toNat ∧ 360 * m.toNat ≤ s.opa ∧ s.opa ≤ 600 * m.toNat then 1 else 0) 0 0)

/-! ## pulse_pair_to_bit converter -/

/-- R62, R63: the result of decode_bit over all inputs; when both durations are bad the error is the
on-duration's. -/
def Obligations.DecodeBitTable : Prop :=
  ∀ on off : Nat,
    ((360 ≤ on ∧ on ≤ 600) → (360 ≤ off ∧ off ≤ 600) → decodeBit on off = .ok false) ∧
    ((360 ≤ on ∧ on ≤ 600) → (1080 ≤ off ∧ off ≤ 1800) → decodeBit on off = .ok true) ∧
    ((360 ≤ on ∧ on ≤ 600) → ¬(360 ≤ off ∧ off ≤ 600) → ¬(1080 ≤ off ∧ off ≤ 1800) →
      decodeBit on off = .error (.abnormalLedOffBitValue off)) ∧
    (¬(360 ≤ on ∧ on ≤ 600) → decodeBit on off = .error (.abnormalLedOnBitValue on))

/-- R60: DECBIT completes in every state whose operands fit their registers: a bit, or code 7 with OPB, or
code 6 with OPA. -/
def Obligations.DecbitCompletes : Prop :=
  ∀ s : State, s.opa < 2 ^ s.params.tw → s.opb < 2 ^ s.params.tw →
    exec .decbit s = .next (
      if 360 ≤ s.opa ∧ s.opa ≤ 600 then
        if 360 ≤ s.opb ∧ s.opb ≤ 600 then s.commandOutcome 0x30000000#32 3 0 0 0 0
        else if 1080 ≤ s.opb ∧ s.opb ≤ 1800 then s.commandOutcome 0x30000000#32 3 0 1 0 0
        else s.commandOutcome 0x30000000#32 3 7 0 s.opb 0
      else s.commandOutcome 0x30000000#32 3 6 0 s.opa 0)

/-! ## multi_bit_value_reconstructor -/

/-- R71, R74 (b), (c), (d): decode_value succeeds exactly when the length is 2n and every pair decodes, and
its value is the sum of the bits at their places, most significant first; it is below 2^n. -/
def Obligations.DecodeValueIsBitSum : Prop :=
  ∀ (ts : List Nat) (n v : Nat),
    decodeValue ts n = .ok v ↔
      ts.length = 2 * n ∧ v < 2 ^ n ∧
      ∃ bit : Nat → Bool,
        (∀ i, i < n → decodeBit (ts.getD (2 * i) 0) (ts.getD (2 * i + 1) 0) = .ok (bit i)) ∧
        v = ∑ i ∈ Finset.range n, if bit i then 2 ^ (n - 1 - i) else 0

/-- R71, R74 (a), (e), (f): decode_value fails on a wrong length whatever the timings are, and else with the
error of the first bad pair; the pairs before it are good and those after it do not matter. -/
def Obligations.DecodeValueFirstError : Prop :=
  ∀ (ts : List Nat) (n : Nat) (e : BlockError),
    decodeValue ts n = .error e ↔
      (ts.length ≠ 2 * n ∧ e = .wrongTimingsNumber (2 * n) ts.length) ∨
      (ts.length = 2 * n ∧ ∃ i, i < n ∧
        (∀ j, j < i → ∃ b, decodeBit (ts.getD (2 * j) 0) (ts.getD (2 * j + 1) 0) = .ok b) ∧
        decodeBit (ts.getD (2 * i) 0) (ts.getD (2 * i + 1) 0) = .error e)

/-- R75: the bit count 0 admits the empty list alone and yields 0; DECVAL can ask for it. -/
def Obligations.ZeroBitCount : Prop :=
  decodeValue [] 0 = .ok 0 ∧
  (∀ ts : List Nat, ts ≠ [] → decodeValue ts 0 = .error (.wrongTimingsNumber 0 ts.length)) ∧
  (∀ (s : State) (base : BitVec 8), base.toNat ≤ min s.count 43 →
    exec (.decval base 0 0) s =
      .next (s.commandOutcome (0x40000000#32 + base.setWidth 32) 4 0 0 0 0))

/-- R71, R52: reconstruction against a tolerance of 25 percent. A list decodes to v exactly when v fits n
bits and every timing is within tolerance of the etalon encoding of v. -/
def Obligations.DecodeValueWithinTolerance : Prop :=
  ∀ (ts : List Nat) (n v : Nat),
    decodeValue ts n = .ok v ↔ v < 2 ^ n ∧ withinTolerance ts (etalonTimings v n)

/-- R70, R72, R73: a legal DECVAL completes in every state that meets the invariant: its slice is read, and
the outcome is decode_value of it, with the whole value in RESULT or the error's code and payload. -/
def Obligations.DecvalCompletes : Prop :=
  ∀ (s : State) (base len bits : BitVec 8), s.Inv →
    bits.toNat ≤ 16 → base.toNat + len.toNat ≤ min s.count 43 →
    ∃ ts : List Nat, ts.length = len.toNat ∧
      (∀ k, k < len.toNat → s.seq.read (base.toNat + k) = ts[k]?) ∧
      ((∃ v, decodeValue ts bits.toNat = .ok v ∧ v < 2 ^ 16 ∧
          exec (.decval base len bits) s =
            .next (s.commandOutcome (0x40#8 ++ bits ++ len ++ base) 4 0 (BitVec.ofNat 16 v) 0 0)) ∨
        (∃ e, decodeValue ts bits.toNat = .error e ∧
          exec (.decval base len bits) s =
            .next (s.commandOutcome (0x40#8 ++ bits ++ len ++ base) 4 e.code 0 e.payload.1 e.payload.2)))

/-! ## nibble_sum_checksum_engine -/

/-- R81, R82: the checksum is the true sum of the four nibbles modulo 16; the sum is at most 60, so the 8-bit
addition of R81 never wraps. The second clause is R82, which the spec itself derives from R81. -/
def Obligations.ChecksumIsNibbleSum : Prop :=
  ∀ d : BitVec 16,
    (calculateChecksum d).toNat =
      (d.toNat % 16 + d.toNat / 16 % 16 + d.toNat / 256 % 16 + d.toNat / 4096) % 16 ∧
    d.toNat % 16 + d.toNat / 16 % 16 + d.toNat / 256 % 16 + d.toNat / 4096 ≤ 60

/-- R83: permuting the four nibbles leaves the checksum unchanged, and the checksum is not injective. -/
def Obligations.ChecksumIgnoresNibbleOrder : Prop :=
  (∀ a b c d a' b' c' d' : BitVec 4, [a, b, c, d].Perm [a', b', c', d'] →
    calculateChecksum (a ++ b ++ c ++ d) = calculateChecksum (a' ++ b' ++ c' ++ d')) ∧
  calculateChecksum 0x0000#16 = calculateChecksum 0x0088#16

/-- R80: CHKSUM completes in every state, on the low 16 bits of OPA alone. -/
def Obligations.ChksumCompletes : Prop :=
  ∀ s : State,
    exec .chksum s = .next (s.commandOutcome 0x50000000#32 5 0
      (BitVec.ofNat 16 ((s.opa % 16 + s.opa / 16 % 16 + s.opa / 256 % 16 + s.opa / 4096 % 16) % 16)) 0 0)

/-! ## frame decoder -/

/-- R95, R96: a frame is judged on its count first, whatever its content: EmptySequence for 0, and
WrongTimingsNumber(43, count) for every other count but 43; so does DECODE, in any state with fitting COUNT.
The clauses on DECODE rest on R90, on R92, which the spec derives from R91, and on log entry 11 (DEDUCED: COUNT
is judged without building the list of samples). -/
def Obligations.CountDecidesBeforeContent : Prop :=
  decodeFrame [] = .error .emptySequence ∧
  (∀ ts : List Nat, ts.length ≠ 0 → ts.length ≠ 43 →
    decodeFrame ts = .error (.wrongTimingsNumber 43 ts.length)) ∧
  (∀ s : State, s.status.sat = false → s.count = 0 →
    exec .decode s = .next (s.commandOutcome 0x60000000#32 6 1 0 0 0)) ∧
  (∀ s : State, s.params.wf → s.count < 2 ^ s.params.cw → s.status.sat = false →
    s.count ≠ 0 → s.count ≠ 43 →
    exec .decode s = .next (s.commandOutcome 0x60000000#32 6 3 0 43 s.count))

/-- R94: DECODE under SAT is illegal, whatever the frame holds. -/
def Obligations.DecodeIllegalUnderSat : Prop :=
  ∀ s : State, s.status.sat = true →
    exec .decode s = .next (s.commandOutcome 0x60000000#32 6 15 0 (0x60000000 % 2 ^ s.params.ew) 0)

/-- R91, R93, R97, R98, R101: the gates of a frame in their order, each with the error of its failure, and
the value when all pass. -/
def Obligations.FrameGatesInOrder : Prop :=
  ∀ ts : List Nat,
    let preamble := 6480 ≤ ts.getD 0 0 ∧ ts.getD 0 0 ≤ 10800 ∧ 2880 ≤ ts.getD 1 0 ∧ ts.getD 1 0 ≤ 4800
    let epilogue := 360 ≤ ts.getD 42 0 ∧ ts.getD 42 0 ≤ 600
    let checksum := decodeValue ((ts.drop 34).take 8) 4
    let data := decodeValue ((ts.drop 2).take 32) 16
    (ts.length = 0 → decodeFrame ts = .error .emptySequence) ∧
    (ts.length ≠ 0 → ts.length ≠ 43 → decodeFrame ts = .error (.wrongTimingsNumber 43 ts.length)) ∧
    (ts.length = 43 →
      (¬preamble → decodeFrame ts = .error .wrongPreamble) ∧
      (preamble → ¬epilogue → decodeFrame ts = .error .wrongEpilogue) ∧
      (preamble → epilogue → ∀ e, checksum = .error e → decodeFrame ts = .error e) ∧
      (preamble → epilogue → ∀ c, checksum = .ok c → ∀ e, data = .error e → decodeFrame ts = .error e) ∧
      (preamble → epilogue → ∀ c, checksum = .ok c → ∀ d, data = .ok d →
        c ≠ (calculateChecksum (BitVec.ofNat 16 d)).toNat →
        decodeFrame ts = .error (.checksumMismatch c (calculateChecksum (BitVec.ofNat 16 d)).toNat)) ∧
      (preamble → epilogue → ∀ d, data = .ok d →
        checksum = .ok (calculateChecksum (BitVec.ofNat 16 d)).toNat → decodeFrame ts = .ok d))

/-- R93, R100, R101, R130: the errors a frame of 43 timings can end in, with their payloads: the
reconstructor's own length error is not among them, a reported timing is one of the frame and outside its
windows, and a mismatch carries two different 4-bit values. -/
def Obligations.FrameErrorKinds : Prop :=
  ∀ (ts : List Nat) (e : BlockError), ts.length = 43 → decodeFrame ts = .error e →
    e = .wrongPreamble ∨ e = .wrongEpilogue ∨
    (∃ t ∈ ts, e = .abnormalLedOnBitValue t ∧ ¬(360 ≤ t ∧ t ≤ 600)) ∨
    (∃ t ∈ ts, e = .abnormalLedOffBitValue t ∧ ¬(360 ≤ t ∧ t ≤ 600) ∧ ¬(1080 ≤ t ∧ t ≤ 1800)) ∨
    (∃ c a, e = .checksumMismatch c a ∧ c < 16 ∧ a < 16 ∧ c ≠ a)

/-- R91, R31, R47, R52: the decoder is exact. A frame decodes to a value exactly when every one of its
timings is within 25 percent of the ideal frame of that value, and it then is a 16-bit value. -/
def Obligations.FrameDecodesExactlyWithinTolerance : Prop :=
  ∀ (ts : List Nat) (v : Nat),
    decodeFrame ts = .ok v ↔ v < 2 ^ 16 ∧ withinTolerance ts (etalonFrame (BitVec.ofNat 16 v))

/-- R90, R92: DECODE of a full frame completes in every state that meets the invariant and is not
saturated: its 43 entries are read, and the outcome is decode_frame of them. -/
def Obligations.DecodeCompletes : Prop :=
  ∀ s : State, s.Inv → s.status.sat = false → s.count = 43 →
    ∃ ts : List Nat, ts.length = 43 ∧ (∀ k, k < 43 → s.seq.read k = ts[k]?) ∧
      ((∃ v, decodeFrame ts = .ok v ∧ v < 2 ^ 16 ∧
          exec .decode s = .next (s.commandOutcome 0x60000000#32 6 0 (BitVec.ofNat 16 v) 0 0)) ∨
        (∃ e, decodeFrame ts = .error e ∧
          exec .decode s = .next (s.commandOutcome 0x60000000#32 6 e.code 0 e.payload.1 e.payload.2)))

/-! ## Frame control and data movement -/

/-- R110: CLEAR completes in every state. COUNT and SAT are 0, no entry of SEQ is written, the outcome is a
success with RESULT 0, and OPA and OPB stay. -/
def Obligations.ClearCompletes : Prop :=
  ∀ s : State, ∃ t, exec .clear s = .next t ∧
    t.cmd = 0x10000000#32 ∧ t.status = { err := 0, done := true, sat := false, op := 1 } ∧
    t.count = 0 ∧ (∀ k, t.seq.read k = none) ∧ t.result = 0 ∧ t.errA = 0 ∧ t.errB = 0 ∧
    t.opa = s.opa ∧ t.opb = s.opb ∧ t.params = s.params ∧ t.pending = s.pending ∧ t.reads = s.reads

/-- R111, R30: PUSH of a TW-bit timing completes in every state. Entry COUNT takes it while COUNT is below
43 and every other entry stays; COUNT advances, or stays at 2^CW - 1 and SAT is set; nothing else changes. -/
def Obligations.PushCompletes : Prop :=
  ∀ (s : State) (x : Nat), x < 2 ^ s.params.tw → ∃ t, exec (.push x) s = .next t ∧
    (∀ k, t.seq.read k = if k = s.count ∧ s.count < 43 then some x else s.seq.read k) ∧
    (s.count < 2 ^ s.params.cw - 1 → t.count = s.count + 1 ∧ t.status = s.status) ∧
    (2 ^ s.params.cw - 1 ≤ s.count → t.count = s.count ∧ t.status = { s.status with sat := true }) ∧
    t.cmd = s.cmd ∧ t.result = s.result ∧ t.errA = s.errA ∧ t.errB = s.errB ∧ t.opa = s.opa ∧
    t.opb = s.opb ∧ t.params = s.params ∧ t.pending = s.pending ∧ t.reads = s.reads

/-- R112: SETA and SETB of a TW-bit value complete in every state and change their operand register alone. -/
def Obligations.SetOperandCompletes : Prop :=
  ∀ (s : State) (v : Nat), v < 2 ^ s.params.tw →
    exec (.seta v) s = .next { s with opa := v } ∧ exec (.setb v) s = .next { s with opb := v }

/-- R113, R15, R18: RD completes in every state, returns the register's value at its full width (for STATUS
ERR + 16 DONE + 32 SAT + 256 OP, for SAMPLE 0) and changes no register and no entry of SEQ. -/
def Obligations.ReadReturnsRegister : Prop :=
  ∀ (s : State) (r : Reg),
    exec (.rd r) s = .next { s with reads := s.reads ++ [match r with
      | .cmd => s.cmd.toNat
      | .status => s.status.err.toNat + 16 * s.status.done.toNat + 32 * s.status.sat.toNat +
          256 * s.status.op.toNat
      | .sample => 0
      | .count => s.count
      | .opa => s.opa
      | .opb => s.opb
      | .result => s.result.toNat
      | .errA => s.errA
      | .errB => s.errB] }

/-! ## Frames: what operations leave alone -/

/-- R16, R133: CLASSIFY, DECBIT, DECVAL, CHKSUM and DECODE write nothing but CMD, STATUS (ERR, DONE, OP),
RESULT, ERR_A and ERR_B: not COUNT, SAT, OPA or OPB, and no entry of SEQ. -/
def Obligations.CommandsKeepFrameAndOperands : Prop :=
  ∀ (i : Instr) (s t : State), isJudgement i = true → exec i s = .next t →
    t.count = s.count ∧ t.status.sat = s.status.sat ∧ t.opa = s.opa ∧ t.opb = s.opb ∧
    t.params = s.params ∧ t.pending = s.pending ∧ t.reads = s.reads ∧
    ∀ k, t.seq.read k = s.seq.read k

/-- R16: a PUSH, a SETA, a SETB and a register read leave CMD and the four outcome registers unchanged, and
all but PUSH leave SAT, COUNT and every entry of SEQ unchanged. -/
def Obligations.DataMovesKeepOutcome : Prop :=
  ∀ (i : Instr) (s t : State), isJudgement i = false → i ≠ .clear → exec i s = .next t →
    t.cmd = s.cmd ∧ t.status.err = s.status.err ∧ t.status.done = s.status.done ∧
    t.status.op = s.status.op ∧ t.result = s.result ∧ t.errA = s.errA ∧ t.errB = s.errB ∧
    t.params = s.params ∧ t.pending = s.pending ∧
    ((∀ x, i ≠ .push x) → t.count = s.count ∧ t.status.sat = s.status.sat ∧
      ∀ k, t.seq.read k = s.seq.read k)

/-! ## Invariants -/

/-- R22, R32: the state after reset meets every invariant of the model, the form of SEQ of log entry 5 (DESIGN
CHOICE) among them. -/
def Obligations.ResetMeetsInvariants : Prop :=
  State.reset.Inv ∧ State.reset.OutcomeInv ∧ State.reset.seq.wf

/-- R10 to R17, R30, R32: every step keeps the invariant of the registers and SEQ: the written entries are
exactly those below min(COUNT, 43), every register holds a value of its width, SAT is set only at the largest
count, OP is the opcode of CMD, and the outcome registers agree on whether there was an error. That the written
entries stand in rising order is the model's form of SEQ (log entry 5, DESIGN CHOICE). -/
def Obligations.StepKeepsInvariant : Prop :=
  ∀ s t : State, s.Inv → step s = .next t → t.Inv

/-- R130, R131: every step keeps the meaning of the outcome registers: an error code stands only under an
opcode that can raise it, with a payload that it can carry. -/
def Obligations.StepKeepsOutcomeInvariant : Prop :=
  ∀ s t : State, s.Inv → s.OutcomeInv → step s = .next t → t.OutcomeInv

/-- The model's choice (log entry 5, DESIGN CHOICE): SEQ is held as a list of cells with strictly rising
indices, a form that no rule of the spec names; R30 gives only the bound 43 on the indices. Every step keeps
that form, in states that meet nothing else too. -/
def Obligations.StepKeepsMemoryForm : Prop :=
  ∀ s t : State, s.seq.wf → step s = .next t → t.seq.wf

/-- R23: no step changes the widths the block was built with. -/
def Obligations.StepKeepsWidths : Prop :=
  ∀ s t : State, step s = .next t → t.params = s.params

/-- R32, R156: in a state that meets the invariant no step faults (no unwritten entry is ever read), and
every step on an access of the interface, on RESET or on nothing (log entry 8, DEDUCED) completes: no command
can hang. -/
def Obligations.InvariantStepsComplete : Prop :=
  ∀ s : State, s.Inv →
    s.stepSafe ∧
    ((∀ a rest, s.pending = .access a :: rest → accessInside s.params a) → ∃ t, step s = .next t)

/-! ## Rules of the whole machine -/

/-- R15, R110, R111, R160: frames accumulate until cleared. Unless the step is RESET or a CLEAR, COUNT does
not fall, SAT stays set, and a written entry keeps its value. -/
def Obligations.FrameGrowsUntilCleared : Prop :=
  ∀ s t : State, s.Inv → step s = .next t →
    (∀ rest, s.pending ≠ .reset :: rest) →
    (∀ rest, s.pending ≠ .access (.write 0 0x10000000) :: rest) →
    s.count ≤ t.count ∧ (s.status.sat = true → t.status.sat = true) ∧
    ∀ k x, s.seq.read k = some x → t.seq.read k = some x

/-- R11, R112: OPA changes only by a write to it or by RESET, and OPB likewise. -/
def Obligations.OperandsChangeOnlyBySet : Prop :=
  ∀ s t : State, step s = .next t →
    (t.opa ≠ s.opa → (∃ rest, s.pending = .reset :: rest) ∨
      ∃ rest, s.pending = .access (.write 4 t.opa) :: rest) ∧
    (t.opb ≠ s.opb → (∃ rest, s.pending = .reset :: rest) ∨
      ∃ rest, s.pending = .access (.write 5 t.opb) :: rest)

/-- R161, R136: CLASSIFY, DECBIT, DECVAL, CHKSUM and DECODE may be repeated: issued again they give the same
outcome, whether the first ended in a value or an error. -/
def Obligations.RepeatedCommandSameOutcome : Prop :=
  ∀ (i : Instr) (s t : State), isJudgement i = true → exec i s = .next t → exec i t = .next t

/-- R21: a command's outcome depends on its word, OPA, OPB, COUNT, SAT and SEQ alone: from two states that
agree on these it leaves the same outcome registers, whatever earlier outcomes, reads and pending accesses
they hold. -/
def Obligations.OutcomeDependsOnInputsOnly : Prop :=
  ∀ (i : Instr) (s₁ s₂ t₁ : State), isJudgement i = true ∨ i = .clear →
    s₁.params = s₂.params → s₁.opa = s₂.opa → s₁.opb = s₂.opb → s₁.count = s₂.count →
    s₁.status.sat = s₂.status.sat → s₁.seq = s₂.seq → exec i s₁ = .next t₁ →
    ∃ t₂, exec i s₂ = .next t₂ ∧ t₂.cmd = t₁.cmd ∧ t₂.status = t₁.status ∧ t₂.result = t₁.result ∧
      t₂.errA = t₁.errA ∧ t₂.errB = t₁.errB

/-- R114: the life of one frame. From any state that meets the invariant, CLEAR, one PUSH per timing and
DECODE run to an outcome that is decode_frame of the timings, for every list of TW-bit timings shorter than
2^CW. The outcome is read off the registers as log entry 14 (DEDUCED) says. -/
def Obligations.FrameRunDecodesItsTimings : Prop :=
  ∀ (s : State) (ts : List Nat) (rest : List HostEvent), s.Inv →
    ts.length < 2 ^ s.params.cw → (∀ x ∈ ts, x < 2 ^ s.params.tw) →
    s.pending = frameScript ts ++ rest →
    ∃ t, core.run (ts.length + 2) s = .next t ∧ outcomeOf t = some (decodeFrame ts) ∧
      t.count = ts.length ∧ t.opa = s.opa ∧ t.opb = s.opb ∧ t.pending = rest ∧ t.reads = s.reads

/-! ## The host shell -/

/-- R125: the rendering of a 16-bit value: exactly four digits of 0123456789abcdef, the most significant
first, leading zeros kept. -/
def Obligations.HexRendering : Prop :=
  ∀ d : BitVec 16, hex4 d =
    [d.toNat / 4096, d.toNat / 256 % 16, d.toNat / 16 % 16, d.toNat % 16].map
      fun n => "0123456789abcdef".toList.getD n ' '

/-- R121, R122: a line that holds nothing but the six ASCII white-space characters, or nothing at all, is
EmptySequence, at any width. That a line of white space alone counts as empty is the spec's own reading of its
source (R122, D12), and the six characters are its own choice (R121, D20). -/
def Obligations.BlankLineIsEmptySequence : Prop :=
  ∀ (tw : Nat) (line : List Char), (∀ c ∈ line, c.toNat ∈ [0x20, 0x09, 0x0A, 0x0B, 0x0C, 0x0D]) →
    decodeText tw line = .error (.frame .emptySequence)

/-- R123: which tokens parse, and to what: one or more decimal digits of a value below 2^TW, leading zeros
ignored. -/
def Obligations.TokenGrammar : Prop :=
  ∀ (tw : Nat) (token : List Char) (v : Nat),
    parseToken tw token = some v ↔
      token ≠ [] ∧ (∀ c ∈ token, '0' ≤ c ∧ c ≤ '9') ∧
      token.foldl (fun acc c => 10 * acc + (c.toNat - 48)) 0 = v ∧ v < 2 ^ tw

/-- R121, R126: tokens joined by single spaces decode as the frame of their values. -/
def Obligations.JoinedTokensDecode : Prop :=
  ∀ (tw : Nat) (toks : List (List Char)) (ts : List Nat), toks ≠ [] →
    (∀ tok ∈ toks, tok ≠ [] ∧ ∀ c ∈ tok, isWhitespace c = false) →
    toks.map (parseToken tw) = ts.map some →
    decodeText tw ([' '].intercalate toks) =
      match decodeFrame ts with
      | .ok d => .ok (hex4 (BitVec.ofNat 16 d))
      | .error e => .error (.frame e)

/-- R123, R124: the first token that does not parse ends the function, before any token is counted. -/
def Obligations.ParsingPrecedesCounting : Prop :=
  ∀ (tw : Nat) (line : List Char) (before after : List (List Char)) (bad : List Char),
    tokens line = before ++ bad :: after → (∀ tok ∈ before, (parseToken tw tok).isSome = true) →
    parseToken tw bad = none → decodeText tw line = .error (.parseFailure bad)

/-- R120, R126: the shell by way of the block. When a line parses to timings that COUNT can count, running
the block on their FRAME and rendering the outcome it reports (read as log entry 14, DEDUCED, says) gives
decode_text of the line. -/
def Obligations.ShellAgreesWithBlock : Prop :=
  ∀ (s : State) (line : List Char) (ts : List Nat), s.Inv →
    tokens line ≠ [] → parseTokens s.params.tw (tokens line) = .ok ts → ts.length < 2 ^ s.params.cw →
    s.pending = frameScript ts →
    ∃ t r, core.run (ts.length + 2) s = .next t ∧ outcomeOf t = some r ∧
      decodeText s.params.tw line =
        match r with
        | .ok d => .ok (hex4 (BitVec.ofNat 16 d))
        | .error e => .error (.frame e)

/-! ## The widths as the argument of the machine -/

/-- R23: TW and CW are the machine's argument and no state. The machine built with given widths, whose state
holds none, takes the step of the model at those widths, and the next state is again one at those widths. -/
def Obligations.MachineStepsAtItsWidths : Prop :=
  ∀ (p : Params) (c : Session), step (c.atWidths p) =
    match machineStep p c with
    | .next d => .next (d.atWidths p)
    | .fault f => .fault f
    | .refused r => .refused r

/-- R5, R22, R23: the machine of any widths that the spec allows starts with every register at 0 and SEQ
unwritten, and so meets the invariants at those widths; SEQ in the form of log entry 5 (DESIGN CHOICE). -/
def Obligations.MachineResetAtItsWidths : Prop :=
  ∀ p : Params, p.wf →
    (∀ r : Reg, readReg (Session.reset.atWidths p) r = 0) ∧ (∀ k, Session.reset.seq.read k = none) ∧
    (Session.reset.atWidths p).Inv ∧ (Session.reset.atWidths p).OutcomeInv ∧ Session.reset.seq.wf

/-- R23, R32: every step of the machine of any widths keeps the invariant at those widths. -/
def Obligations.MachineKeepsInvariant : Prop :=
  ∀ (p : Params) (c d : Session), (c.atWidths p).Inv → machineStep p c = .next d → (d.atWidths p).Inv

/-- R23, R114: the machine of any widths decodes frames. CLEAR, one PUSH per timing and DECODE run to an
outcome (read as log entry 14, DEDUCED, says) that is decode_frame of the timings. -/
def Obligations.MachineDecodesFrames : Prop :=
  ∀ (p : Params) (c : Session) (ts : List Nat) (rest : List HostEvent), (c.atWidths p).Inv →
    ts.length < 2 ^ p.cw → (∀ x ∈ ts, x < 2 ^ p.tw) → c.pending = frameScript ts ++ rest →
    ∃ d : Session, (machine p).run (ts.length + 2) c = .next d ∧
      outcomeOf (d.atWidths p) = some (decodeFrame ts) ∧ d.count = ts.length ∧ d.pending = rest
end

