-- ==== Sys2Proof/Laws/Encoding.lean ====
section
/-! SUPPORT. The fields of command words (spec/30_encoding.md rule R41). -/

namespace Sys2Proof

/-- A word is its five fields, `op` the most significant (R41). -/
theorem word_eq_fields (w : Word) : opField w ++ zField w ++ cField w ++ bField w ++ aField w = w := by
  refine BitVec.eq_of_getLsbD_eq fun i hi => ?_
  simp only [opField, zField, cField, bField, aField, BitVec.getLsbD_append, BitVec.getLsbD_extractLsb']
  interval_cases i <;> rfl

/-! ## DECVAL's word -/

@[simp] theorem opField_decvalWord (base len bits : BitVec 8) : opField (decvalWord base len bits) = 4#4 := by
  refine BitVec.eq_of_getLsbD_eq fun i hi => ?_
  simp only [opField, decvalWord, BitVec.getLsbD_append, BitVec.getLsbD_extractLsb']
  interval_cases i <;> rfl

@[simp] theorem zField_decvalWord (base len bits : BitVec 8) : zField (decvalWord base len bits) = 0#4 := by
  refine BitVec.eq_of_getLsbD_eq fun i hi => ?_
  simp only [zField, decvalWord, BitVec.getLsbD_append, BitVec.getLsbD_extractLsb']
  interval_cases i <;> rfl

@[simp] theorem cField_decvalWord (base len bits : BitVec 8) : cField (decvalWord base len bits) = bits := by
  refine BitVec.eq_of_getLsbD_eq fun i hi => ?_
  simp only [cField, decvalWord, BitVec.getLsbD_append, BitVec.getLsbD_extractLsb']
  interval_cases i <;> rfl

@[simp] theorem bField_decvalWord (base len bits : BitVec 8) : bField (decvalWord base len bits) = len := by
  refine BitVec.eq_of_getLsbD_eq fun i hi => ?_
  simp only [bField, decvalWord, BitVec.getLsbD_append, BitVec.getLsbD_extractLsb']
  interval_cases i <;> rfl

@[simp] theorem aField_decvalWord (base len bits : BitVec 8) : aField (decvalWord base len bits) = base := by
  refine BitVec.eq_of_getLsbD_eq fun i hi => ?_
  simp only [aField, decvalWord, BitVec.getLsbD_append, BitVec.getLsbD_extractLsb']
  interval_cases i <;> rfl

/-! ## CLASSIFY's word -/

@[simp] theorem opField_classifyWord (m : BitVec 8) : opField (classifyWord m) = 2#4 := by
  refine BitVec.eq_of_getLsbD_eq fun i hi => ?_
  simp only [opField, classifyWord, BitVec.getLsbD_append, BitVec.getLsbD_extractLsb']
  interval_cases i <;> rfl

@[simp] theorem zField_classifyWord (m : BitVec 8) : zField (classifyWord m) = 0#4 := by
  refine BitVec.eq_of_getLsbD_eq fun i hi => ?_
  simp only [zField, classifyWord, BitVec.getLsbD_append, BitVec.getLsbD_extractLsb']
  interval_cases i <;> rfl

@[simp] theorem cField_classifyWord (m : BitVec 8) : cField (classifyWord m) = 0#8 := by
  refine BitVec.eq_of_getLsbD_eq fun i hi => ?_
  simp only [cField, classifyWord, BitVec.getLsbD_append, BitVec.getLsbD_extractLsb']
  interval_cases i <;> rfl

@[simp] theorem bField_classifyWord (m : BitVec 8) : bField (classifyWord m) = 0#8 := by
  refine BitVec.eq_of_getLsbD_eq fun i hi => ?_
  simp only [bField, classifyWord, BitVec.getLsbD_append, BitVec.getLsbD_extractLsb']
  interval_cases i <;> rfl

@[simp] theorem aField_classifyWord (m : BitVec 8) : aField (classifyWord m) = m := by
  refine BitVec.eq_of_getLsbD_eq fun i hi => ?_
  simp only [aField, classifyWord, BitVec.getLsbD_append, BitVec.getLsbD_extractLsb']
  interval_cases i <;> rfl

/-- The register at an index has that index. -/
theorem regAt_index {i : Nat} {r : Reg} (h : regAt i = some r) : r.index = i := by
  unfold regAt at h
  split at h <;> cases h <;> rfl

@[simp] theorem regAt_of_index (r : Reg) : regAt r.index = some r := by cases r <;> rfl

end Sys2Proof
end

