-- ==== Sys2Proof/Laws/Memory.lean ====
section
/-! SUPPORT. The laws of SEQ: a read after a write, the canonical form, slices
(spec/20_memory.md rules R30, R32; spec/42_value_reconstructor.md rule R72). -/

namespace Sys2Proof.Machine

theorem Memory.read_write_self (m : Memory) (k : Nat) (t : Nat) :
    (m.write k t).read k = some t := by
  induction m with
  | nil => simp [Memory.write, Memory.read]
  | cons c m ih =>
    obtain ⟨j, u⟩ := c
    simp only [Memory.write]
    split
    · simp [Memory.read]
    · split
      · simp [Memory.read]
      · simp only [Memory.read]
        rw [if_neg (by omega)]
        exact ih

theorem Memory.read_write_of_ne (m : Memory) {j k : Nat} (t : Nat) (h : j ≠ k) :
    (m.write k t).read j = m.read j := by
  induction m with
  | nil => simp [Memory.write, Memory.read, Ne.symm h]
  | cons c m ih =>
    obtain ⟨i, u⟩ := c
    simp only [Memory.write]
    split
    · simp [Memory.read, Ne.symm h]
    · split
      · next hk => subst hk; simp [Memory.read, Ne.symm h]
      · simp only [Memory.read, ih]

/-- The indices a write lists are the old ones and the written one. -/
theorem Memory.mem_write {m : Memory} {k : Nat} {t : Nat} {c : Nat × Nat}
    (h : c ∈ m.write k t) : c = (k, t) ∨ c ∈ m := by
  induction m with
  | nil => simpa [Memory.write] using h
  | cons d m ih =>
    obtain ⟨j, u⟩ := d
    simp only [Memory.write] at h
    split at h
    · simpa using h
    · split at h
      · rcases List.mem_cons.1 h with h | h
        · exact .inl h
        · exact .inr (List.mem_cons_of_mem _ h)
      · rcases List.mem_cons.1 h with h | h
        · exact .inr (h ▸ List.mem_cons_self)
        · exact (ih h).imp_right (List.mem_cons_of_mem _)

theorem Memory.wf_nil : Memory.wf [] := by simp [Memory.wf]

theorem Memory.write_rising {m : Memory} {k : Nat} {t : Nat}
    (h : (m.map Prod.fst).Pairwise (· < ·)) : ((m.write k t).map Prod.fst).Pairwise (· < ·) := by
  induction m with
  | nil => simp [Memory.write]
  | cons c m ih =>
    obtain ⟨j, u⟩ := c
    obtain ⟨hj, hm⟩ := List.pairwise_cons.1 h
    simp only [Memory.write]
    split
    · next hk =>
      refine List.pairwise_cons.2 ⟨fun a ha => ?_, h⟩
      rcases List.mem_cons.1 ha with rfl | ha
      · exact hk
      · exact hk.trans (hj a ha)
    · split
      · next hk => subst hk; exact h
      · refine List.pairwise_cons.2 ⟨fun a ha => ?_, ih hm⟩
        obtain ⟨c, hc, rfl⟩ := List.mem_map.1 ha
        rcases Memory.mem_write hc with rfl | hc
        · show j < k; omega
        · exact hj _ (List.mem_map_of_mem hc)

/-- A write to an entry below 43 keeps the canonical form. -/
theorem Memory.write_wf {m : Memory} {k : Nat} {t : Nat} (h : m.wf) (hk : k < 43) :
    Memory.wf (m.write k t) := by
  refine ⟨Memory.write_rising h.1, fun c hc => ?_⟩
  rcases Memory.mem_write hc with rfl | hc
  · exact hk
  · exact h.2 c hc

/-- A write past every listed index appends its cell. -/
theorem Memory.write_eq_append {m : Memory} {k : Nat} (t : Nat) (h : ∀ c ∈ m, c.1 < k) :
    m.write k t = m ++ [(k, t)] := by
  induction m with
  | nil => rfl
  | cons c m ih =>
    obtain ⟨j, u⟩ := c
    have hj : j < k := h (j, u) List.mem_cons_self
    rw [Memory.write, if_neg (by omega), if_neg (by omega),
      ih fun c hc => h c (List.mem_cons_of_mem _ hc)]
    rfl

/-- An entry that reads as written is listed. -/
theorem Memory.mem_of_read {m : Memory} {k : Nat} {t : Nat} (h : m.read k = some t) :
    (k, t) ∈ m := by
  induction m with
  | nil => simp [Memory.read] at h
  | cons c m ih =>
    obtain ⟨j, u⟩ := c
    simp only [Memory.read] at h
    split at h
    · next hj => subst hj; cases h; exact List.mem_cons_self
    · exact List.mem_cons_of_mem _ (ih h)

/-- An entry is written exactly where its index is listed. -/
theorem Memory.read_isSome {m : Memory} {k : Nat} :
    (m.read k).isSome ↔ k ∈ m.map Prod.fst := by
  induction m with
  | nil => simp [Memory.read]
  | cons c m ih =>
    obtain ⟨j, u⟩ := c
    simp only [Memory.read, List.map_cons, List.mem_cons]
    split
    · next h => simp [h]
    · next h => rw [ih]; exact ⟨.inr, fun h' => h'.resolve_left fun e => h e.symm⟩

/-- Everything a slice can be: the timings of its entries, all written, in order. -/
theorem Memory.slice_eq_ok {m : Memory} {base len : Nat} {ts : List Nat} :
    m.slice base len = .ok ts ↔
      ts.length = len ∧ ∀ k, k < len → m.read (base + k) = ts[k]? := by
  induction len generalizing base ts with
  | zero =>
    simp only [Memory.slice, Except.ok.injEq]
    constructor
    · rintro rfl; exact ⟨rfl, fun k hk => absurd hk (Nat.not_lt_zero k)⟩
    · rintro ⟨h, -⟩; exact (List.length_eq_zero_iff.1 h).symm
  | succ len ih =>
    simp only [Memory.slice]
    constructor
    · intro h
      split at h
      · cases h
      · next t ht =>
        split at h
        · cases h
        · next us hus =>
          cases h
          obtain ⟨hl, hr⟩ := ih.1 hus
          refine ⟨by simp [hl], fun k hk => ?_⟩
          cases k with
          | zero => simpa using ht
          | succ k =>
            have := hr k (by omega)
            rw [← Nat.add_assoc, Nat.add_right_comm]
            simpa using this
    · rintro ⟨hl, hr⟩
      cases ts with
      | nil => simp at hl
      | cons t us =>
        have h0 : m.read base = some t := by simpa using hr 0 (by omega)
        have hus : m.slice (base + 1) len = .ok us := by
          refine ih.2 ⟨by simpa using hl, fun k hk => ?_⟩
          have := hr (k + 1) (by omega)
          rw [Nat.add_assoc, Nat.add_comm 1 k]
          simpa using this
        simp [h0, hus]

/-- A slice of written entries is read. -/
theorem Memory.slice_isOk {m : Memory} {base len : Nat}
    (h : ∀ k, base ≤ k → k < base + len → (m.read k).isSome) : ∃ ts, m.slice base len = .ok ts := by
  induction len generalizing base with
  | zero => exact ⟨[], rfl⟩
  | succ len ih =>
    obtain ⟨t, ht⟩ := Option.isSome_iff_exists.1 (h base le_rfl (by omega))
    obtain ⟨ts, hts⟩ := ih (base := base + 1) fun k h1 h2 => h k (by omega) (by omega)
    exact ⟨t :: ts, by simp [Memory.slice, ht, hts]⟩

end Sys2Proof.Machine
end

