-- ==== Sys2Proof/Laws/State.lean ====
section
/-! SUPPORT. The fields of the state after each named update. -/

namespace Sys2Proof.Machine

/-! ## Widths -/

@[simp] theorem Session.atWidths_params (c : Session) (p : Params) : (c.atWidths p).params = p := rfl
@[simp] theorem Session.atWidths_toSession (c : Session) (p : Params) : (c.atWidths p).toSession = c := rfl
@[simp] theorem State.toSession_atWidths (s : State) : s.toSession.atWidths s.params = s := rfl

/-! ## writeOutcome -/

@[simp] theorem State.writeOutcome_params (s : State) (w : Word) (e : BitVec 4) (r : BitVec 16) (a b : Nat) :
    (s.writeOutcome w e r a b).params = s.params := rfl
@[simp] theorem State.writeOutcome_cmd (s : State) (w : Word) (e : BitVec 4) (r : BitVec 16) (a b : Nat) :
    (s.writeOutcome w e r a b).cmd = w := rfl
@[simp] theorem State.writeOutcome_status (s : State) (w : Word) (e : BitVec 4) (r : BitVec 16) (a b : Nat) :
    (s.writeOutcome w e r a b).status = s.status.afterCommand (opField w) e := rfl
@[simp] theorem State.writeOutcome_count (s : State) (w : Word) (e : BitVec 4) (r : BitVec 16) (a b : Nat) :
    (s.writeOutcome w e r a b).count = s.count := rfl
@[simp] theorem State.writeOutcome_opa (s : State) (w : Word) (e : BitVec 4) (r : BitVec 16) (a b : Nat) :
    (s.writeOutcome w e r a b).opa = s.opa := rfl
@[simp] theorem State.writeOutcome_opb (s : State) (w : Word) (e : BitVec 4) (r : BitVec 16) (a b : Nat) :
    (s.writeOutcome w e r a b).opb = s.opb := rfl
@[simp] theorem State.writeOutcome_result (s : State) (w : Word) (e : BitVec 4) (r : BitVec 16) (a b : Nat) :
    (s.writeOutcome w e r a b).result = r := rfl
@[simp] theorem State.writeOutcome_errA (s : State) (w : Word) (e : BitVec 4) (r : BitVec 16) (a b : Nat) :
    (s.writeOutcome w e r a b).errA = payloadBits s.params a := rfl
@[simp] theorem State.writeOutcome_errB (s : State) (w : Word) (e : BitVec 4) (r : BitVec 16) (a b : Nat) :
    (s.writeOutcome w e r a b).errB = payloadBits s.params b := rfl
@[simp] theorem State.writeOutcome_seq (s : State) (w : Word) (e : BitVec 4) (r : BitVec 16) (a b : Nat) :
    (s.writeOutcome w e r a b).seq = s.seq := rfl
@[simp] theorem State.writeOutcome_pending (s : State) (w : Word) (e : BitVec 4) (r : BitVec 16) (a b : Nat) :
    (s.writeOutcome w e r a b).pending = s.pending := rfl
@[simp] theorem State.writeOutcome_reads (s : State) (w : Word) (e : BitVec 4) (r : BitVec 16) (a b : Nat) :
    (s.writeOutcome w e r a b).reads = s.reads := rfl

/-! ## clearFrame -/

@[simp] theorem State.clearFrame_params (s : State) :
    (s.clearFrame).params = s.params := rfl
@[simp] theorem State.clearFrame_cmd (s : State) :
    (s.clearFrame).cmd = s.cmd := rfl
@[simp] theorem State.clearFrame_status (s : State) :
    (s.clearFrame).status = { s.status with sat := false } := rfl
@[simp] theorem State.clearFrame_count (s : State) :
    (s.clearFrame).count = 0 := rfl
@[simp] theorem State.clearFrame_opa (s : State) :
    (s.clearFrame).opa = s.opa := rfl
@[simp] theorem State.clearFrame_opb (s : State) :
    (s.clearFrame).opb = s.opb := rfl
@[simp] theorem State.clearFrame_result (s : State) :
    (s.clearFrame).result = s.result := rfl
@[simp] theorem State.clearFrame_errA (s : State) :
    (s.clearFrame).errA = s.errA := rfl
@[simp] theorem State.clearFrame_errB (s : State) :
    (s.clearFrame).errB = s.errB := rfl
@[simp] theorem State.clearFrame_seq (s : State) :
    (s.clearFrame).seq = [] := rfl
@[simp] theorem State.clearFrame_pending (s : State) :
    (s.clearFrame).pending = s.pending := rfl
@[simp] theorem State.clearFrame_reads (s : State) :
    (s.clearFrame).reads = s.reads := rfl

/-! ## pushSample -/

@[simp] theorem State.pushSample_params (s : State) (t : Nat) :
    (s.pushSample t).params = s.params := rfl
@[simp] theorem State.pushSample_cmd (s : State) (t : Nat) :
    (s.pushSample t).cmd = s.cmd := rfl
@[simp] theorem State.pushSample_status (s : State) (t : Nat) :
    (s.pushSample t).status = { s.status with sat := if s.count < countMax s.params then s.status.sat else true } := rfl
@[simp] theorem State.pushSample_count (s : State) (t : Nat) :
    (s.pushSample t).count = if s.count < countMax s.params then s.count + 1 else s.count := rfl
@[simp] theorem State.pushSample_opa (s : State) (t : Nat) :
    (s.pushSample t).opa = s.opa := rfl
@[simp] theorem State.pushSample_opb (s : State) (t : Nat) :
    (s.pushSample t).opb = s.opb := rfl
@[simp] theorem State.pushSample_result (s : State) (t : Nat) :
    (s.pushSample t).result = s.result := rfl
@[simp] theorem State.pushSample_errA (s : State) (t : Nat) :
    (s.pushSample t).errA = s.errA := rfl
@[simp] theorem State.pushSample_errB (s : State) (t : Nat) :
    (s.pushSample t).errB = s.errB := rfl
@[simp] theorem State.pushSample_seq (s : State) (t : Nat) :
    (s.pushSample t).seq = if s.count < frameLen then s.seq.write s.count t else s.seq := rfl
@[simp] theorem State.pushSample_pending (s : State) (t : Nat) :
    (s.pushSample t).pending = s.pending := rfl
@[simp] theorem State.pushSample_reads (s : State) (t : Nat) :
    (s.pushSample t).reads = s.reads := rfl

/-! ## setOpa -/

@[simp] theorem State.setOpa_params (s : State) (v : Nat) :
    (s.setOpa v).params = s.params := rfl
@[simp] theorem State.setOpa_cmd (s : State) (v : Nat) :
    (s.setOpa v).cmd = s.cmd := rfl
@[simp] theorem State.setOpa_status (s : State) (v : Nat) :
    (s.setOpa v).status = s.status := rfl
@[simp] theorem State.setOpa_count (s : State) (v : Nat) :
    (s.setOpa v).count = s.count := rfl
@[simp] theorem State.setOpa_opa (s : State) (v : Nat) :
    (s.setOpa v).opa = v := rfl
@[simp] theorem State.setOpa_opb (s : State) (v : Nat) :
    (s.setOpa v).opb = s.opb := rfl
@[simp] theorem State.setOpa_result (s : State) (v : Nat) :
    (s.setOpa v).result = s.result := rfl
@[simp] theorem State.setOpa_errA (s : State) (v : Nat) :
    (s.setOpa v).errA = s.errA := rfl
@[simp] theorem State.setOpa_errB (s : State) (v : Nat) :
    (s.setOpa v).errB = s.errB := rfl
@[simp] theorem State.setOpa_seq (s : State) (v : Nat) :
    (s.setOpa v).seq = s.seq := rfl
@[simp] theorem State.setOpa_pending (s : State) (v : Nat) :
    (s.setOpa v).pending = s.pending := rfl
@[simp] theorem State.setOpa_reads (s : State) (v : Nat) :
    (s.setOpa v).reads = s.reads := rfl

/-! ## setOpb -/

@[simp] theorem State.setOpb_params (s : State) (v : Nat) :
    (s.setOpb v).params = s.params := rfl
@[simp] theorem State.setOpb_cmd (s : State) (v : Nat) :
    (s.setOpb v).cmd = s.cmd := rfl
@[simp] theorem State.setOpb_status (s : State) (v : Nat) :
    (s.setOpb v).status = s.status := rfl
@[simp] theorem State.setOpb_count (s : State) (v : Nat) :
    (s.setOpb v).count = s.count := rfl
@[simp] theorem State.setOpb_opa (s : State) (v : Nat) :
    (s.setOpb v).opa = s.opa := rfl
@[simp] theorem State.setOpb_opb (s : State) (v : Nat) :
    (s.setOpb v).opb = v := rfl
@[simp] theorem State.setOpb_result (s : State) (v : Nat) :
    (s.setOpb v).result = s.result := rfl
@[simp] theorem State.setOpb_errA (s : State) (v : Nat) :
    (s.setOpb v).errA = s.errA := rfl
@[simp] theorem State.setOpb_errB (s : State) (v : Nat) :
    (s.setOpb v).errB = s.errB := rfl
@[simp] theorem State.setOpb_seq (s : State) (v : Nat) :
    (s.setOpb v).seq = s.seq := rfl
@[simp] theorem State.setOpb_pending (s : State) (v : Nat) :
    (s.setOpb v).pending = s.pending := rfl
@[simp] theorem State.setOpb_reads (s : State) (v : Nat) :
    (s.setOpb v).reads = s.reads := rfl

/-! ## recordRead -/

@[simp] theorem State.recordRead_params (s : State) (v : Nat) :
    (s.recordRead v).params = s.params := rfl
@[simp] theorem State.recordRead_cmd (s : State) (v : Nat) :
    (s.recordRead v).cmd = s.cmd := rfl
@[simp] theorem State.recordRead_status (s : State) (v : Nat) :
    (s.recordRead v).status = s.status := rfl
@[simp] theorem State.recordRead_count (s : State) (v : Nat) :
    (s.recordRead v).count = s.count := rfl
@[simp] theorem State.recordRead_opa (s : State) (v : Nat) :
    (s.recordRead v).opa = s.opa := rfl
@[simp] theorem State.recordRead_opb (s : State) (v : Nat) :
    (s.recordRead v).opb = s.opb := rfl
@[simp] theorem State.recordRead_result (s : State) (v : Nat) :
    (s.recordRead v).result = s.result := rfl
@[simp] theorem State.recordRead_errA (s : State) (v : Nat) :
    (s.recordRead v).errA = s.errA := rfl
@[simp] theorem State.recordRead_errB (s : State) (v : Nat) :
    (s.recordRead v).errB = s.errB := rfl
@[simp] theorem State.recordRead_seq (s : State) (v : Nat) :
    (s.recordRead v).seq = s.seq := rfl
@[simp] theorem State.recordRead_pending (s : State) (v : Nat) :
    (s.recordRead v).pending = s.pending := rfl
@[simp] theorem State.recordRead_reads (s : State) (v : Nat) :
    (s.recordRead v).reads = s.reads ++ [v] := rfl

/-! ## withPending -/

@[simp] theorem State.withPending_params (s : State) (rest : List HostEvent) :
    (s.withPending rest).params = s.params := rfl
@[simp] theorem State.withPending_cmd (s : State) (rest : List HostEvent) :
    (s.withPending rest).cmd = s.cmd := rfl
@[simp] theorem State.withPending_status (s : State) (rest : List HostEvent) :
    (s.withPending rest).status = s.status := rfl
@[simp] theorem State.withPending_count (s : State) (rest : List HostEvent) :
    (s.withPending rest).count = s.count := rfl
@[simp] theorem State.withPending_opa (s : State) (rest : List HostEvent) :
    (s.withPending rest).opa = s.opa := rfl
@[simp] theorem State.withPending_opb (s : State) (rest : List HostEvent) :
    (s.withPending rest).opb = s.opb := rfl
@[simp] theorem State.withPending_result (s : State) (rest : List HostEvent) :
    (s.withPending rest).result = s.result := rfl
@[simp] theorem State.withPending_errA (s : State) (rest : List HostEvent) :
    (s.withPending rest).errA = s.errA := rfl
@[simp] theorem State.withPending_errB (s : State) (rest : List HostEvent) :
    (s.withPending rest).errB = s.errB := rfl
@[simp] theorem State.withPending_seq (s : State) (rest : List HostEvent) :
    (s.withPending rest).seq = s.seq := rfl
@[simp] theorem State.withPending_pending (s : State) (rest : List HostEvent) :
    (s.withPending rest).pending = rest := rfl
@[simp] theorem State.withPending_reads (s : State) (rest : List HostEvent) :
    (s.withPending rest).reads = s.reads := rfl

/-! ## resetBlock -/

@[simp] theorem State.resetBlock_params (s : State) :
    (s.resetBlock).params = s.params := rfl
@[simp] theorem State.resetBlock_cmd (s : State) :
    (s.resetBlock).cmd = 0 := rfl
@[simp] theorem State.resetBlock_status (s : State) :
    (s.resetBlock).status = { err := 0, done := false, sat := false, op := 0 } := rfl
@[simp] theorem State.resetBlock_count (s : State) :
    (s.resetBlock).count = 0 := rfl
@[simp] theorem State.resetBlock_opa (s : State) :
    (s.resetBlock).opa = 0 := rfl
@[simp] theorem State.resetBlock_opb (s : State) :
    (s.resetBlock).opb = 0 := rfl
@[simp] theorem State.resetBlock_result (s : State) :
    (s.resetBlock).result = 0 := rfl
@[simp] theorem State.resetBlock_errA (s : State) :
    (s.resetBlock).errA = 0 := rfl
@[simp] theorem State.resetBlock_errB (s : State) :
    (s.resetBlock).errB = 0 := rfl
@[simp] theorem State.resetBlock_seq (s : State) :
    (s.resetBlock).seq = [] := rfl
@[simp] theorem State.resetBlock_pending (s : State) :
    (s.resetBlock).pending = s.pending := rfl
@[simp] theorem State.resetBlock_reads (s : State) :
    (s.resetBlock).reads = s.reads := rfl

/-! ## STATUS after a command -/

@[simp] theorem Status.afterCommand_err (st : Status) (op e : BitVec 4) :
    (st.afterCommand op e).err = e := rfl
@[simp] theorem Status.afterCommand_done (st : Status) (op e : BitVec 4) :
    (st.afterCommand op e).done = true := rfl
@[simp] theorem Status.afterCommand_sat (st : Status) (op e : BitVec 4) :
    (st.afterCommand op e).sat = st.sat := rfl
@[simp] theorem Status.afterCommand_op (st : Status) (op e : BitVec 4) :
    (st.afterCommand op e).op = op := rfl

end Sys2Proof.Machine
end

