-- ==== Sys2Proof/Laws/Ops.lean ====
section
/-! SUPPORT. What each shared operation, `exec` and `step` can do, said once. -/

namespace Sys2Proof.Machine

/-! ## Shared operations -/

theorem withSlice_eq_next {s t : State} {base len : Nat} {k : List Nat → State} :
    withSlice s base len k = .next t ↔ ∃ ts, s.seq.slice base len = .ok ts ∧ t = k ts := by
  unfold withSlice
  split
  · next ts h => simp [h, eq_comm]
  · next i h => simp [h]

theorem withSlice_eq_fault {s : State} {base len : Nat} {k : List Nat → State} {f : Fault} :
    withSlice s base len k = .fault f ↔ ∃ i, s.seq.slice base len = .error i ∧ f = .unwrittenSample i := by
  unfold withSlice
  split
  · next ts h => simp [h]
  · next i h => simp [h, eq_comm]

theorem withTiming_eq_next {s t k : State} {r : Reg} {v : Nat} :
    withTiming s r v k = .next t ↔ v < 2 ^ s.params.tw ∧ t = k := by
  unfold withTiming
  split
  · next h => exact ⟨fun e => ⟨h, by cases e; rfl⟩, fun e => by rw [e.2]⟩
  · next h => simp [h]

/-- A result is concluded by one write of the outcome registers. -/
theorem State.conclude_eq_writeOutcome (s : State) (w : Word) (r : Except BlockError Nat) :
    ∃ e v a b, s.conclude w r = s.writeOutcome w e v a b := by
  cases r with
  | ok v => exact ⟨_, _, _, _, rfl⟩
  | error e => exact ⟨_, _, _, _, rfl⟩

theorem rejectAccess_eq_next {r : Reject} {s t : State} :
    rejectAccess r s = .next t ↔
      (∃ w why, r = .illegalWord w why ∧ t = s.illegal w) ∨ (∃ g, r = .readOnly g ∧ t = s) := by
  cases r <;> simp [rejectAccess, eq_comm]

theorem rejectAccess_ne_fault (r : Reject) (s : State) (f : Fault) : rejectAccess r s ≠ .fault f := by
  cases r <;> simp [rejectAccess]

/-! ## exec -/

/-- Everything an operation can do when it goes on: CLEAR empties the frame; the other commands only write
their word and the outcome registers; a data write does its one update; a read returns a value. -/
theorem exec_cases {i : Instr} {s t : State} (h : exec i s = .next t) :
    (i = .clear ∧ t = s.clearFrame.succeed clearWord 0) ∨
    (∃ w e v a b, encode i = .write 0 w.toNat ∧ i ≠ .clear ∧ t = s.writeOutcome w e v a b) ∨
    (∃ v, i = .push v ∧ v < 2 ^ s.params.tw ∧ t = s.pushSample v) ∨
    (∃ v, i = .seta v ∧ v < 2 ^ s.params.tw ∧ t = s.setOpa v) ∨
    (∃ v, i = .setb v ∧ v < 2 ^ s.params.tw ∧ t = s.setOpb v) ∨
    (∃ r, i = .rd r ∧ t = s.recordRead (readReg s r)) := by
  cases i with
  | clear => exact .inl ⟨rfl, by simpa [exec, execClear, eq_comm] using h⟩
  | classify m =>
    exact .inr (.inl ⟨classifyWord m, _, _, _, _, rfl, by simp, by
      simpa [exec, execClassify, State.succeed, eq_comm] using h⟩)
  | decbit =>
    obtain ⟨e, v, a, b, hc⟩ := s.conclude_eq_writeOutcome decbitWord ((decodeBit s.opa s.opb).map Bool.toNat)
    refine .inr (.inl ⟨decbitWord, e, v, a, b, rfl, by simp, ?_⟩)
    rw [← hc]
    simpa [exec, execDecbit, eq_comm] using h
  | decval base len bits =>
    right; left
    simp only [exec, execDecval] at h
    split at h
    · exact ⟨decvalWord base len bits, _, _, _, _, rfl, by simp, by
        simpa [State.illegal, State.raise, eq_comm] using h⟩
    · obtain ⟨ts, -, rfl⟩ := withSlice_eq_next.1 h
      obtain ⟨e, v, a, b, hc⟩ :=
        s.conclude_eq_writeOutcome (decvalWord base len bits) (decodeValue ts bits.toNat)
      exact ⟨_, e, v, a, b, rfl, by simp, hc⟩
  | chksum =>
    exact .inr (.inl ⟨chksumWord, _, _, _, _, rfl, by simp, by
      simpa [exec, execChksum, State.succeed, eq_comm] using h⟩)
  | decode =>
    right; left
    simp only [exec, execDecode] at h
    split at h
    · exact ⟨decodeWord, _, _, _, _, rfl, by simp, by
        simpa [State.illegal, State.raise, eq_comm] using h⟩
    · split at h
      · exact ⟨decodeWord, _, _, _, _, rfl, by simp, by simpa [State.raise, eq_comm] using h⟩
      · obtain ⟨ts, -, rfl⟩ := withSlice_eq_next.1 h
        obtain ⟨e, v, a, b, hc⟩ := s.conclude_eq_writeOutcome decodeWord (decodeFrame ts)
        exact ⟨_, e, v, a, b, rfl, by simp, hc⟩
  | push v => exact .inr (.inr (.inl ⟨v, rfl, withTiming_eq_next.1 h⟩))
  | seta v => exact .inr (.inr (.inr (.inl ⟨v, rfl, withTiming_eq_next.1 h⟩)))
  | setb v => exact .inr (.inr (.inr (.inr (.inl ⟨v, rfl, withTiming_eq_next.1 h⟩))))
  | rd r =>
    exact .inr (.inr (.inr (.inr (.inr ⟨r, rfl, by simpa [exec, execRd, eq_comm] using h⟩))))

/-- Only DECVAL and DECODE can fault, on a slice that is not all written. -/
theorem exec_fault_cases {i : Instr} {s : State} {f : Fault} (h : exec i s = .fault f) :
    (∃ base len bits k, i = .decval base len bits ∧ illegalSlice s base len bits = false ∧
      s.seq.slice base.toNat len.toNat = .error k) ∨
    (∃ k, i = .decode ∧ s.count = frameLen ∧ s.seq.slice 0 frameLen = .error k) := by
  cases i with
  | decval base len bits =>
    simp only [exec, execDecval] at h
    split at h
    · cases h
    · next hl =>
      obtain ⟨k, hk, -⟩ := withSlice_eq_fault.1 h
      exact .inl ⟨base, len, bits, k, rfl, by simpa using hl, hk⟩
  | decode =>
    simp only [exec, execDecode] at h
    split at h
    · cases h
    · split at h
      · cases h
      · next hg =>
        obtain ⟨k, hk, -⟩ := withSlice_eq_fault.1 h
        refine .inr ⟨k, rfl, ?_, hk⟩
        by_contra hc
        simp only [countGate] at hg
        split at hg <;> simp_all
  | clear => cases h
  | classify m => cases h
  | decbit => cases h
  | chksum => cases h
  | push v => simp only [exec, execPush, withTiming] at h; split at h <;> cases h
  | seta v => simp only [exec, execSeta, withTiming] at h; split at h <;> cases h
  | setb v => simp only [exec, execSetb, withTiming] at h; split at h <;> cases h
  | rd r => cases h

/-! ## step -/

/-- Everything a step can do when it goes on. -/
theorem step_cases {s t : State} (h : step s = .next t) :
    (s.pending = [] ∧ t = s) ∨
    (∃ rest, s.pending = .reset :: rest ∧ t = (s.withPending rest).resetBlock) ∨
    (∃ a rest i, s.pending = .access a :: rest ∧ decode s.params a = .ok i ∧
      exec i (s.withPending rest) = .next t) ∨
    (∃ a rest w why, s.pending = .access a :: rest ∧ decode s.params a = .error (.illegalWord w why) ∧
      t = (s.withPending rest).illegal w) ∨
    (∃ a rest r, s.pending = .access a :: rest ∧ decode s.params a = .error (.readOnly r) ∧
      t = s.withPending rest) := by
  simp only [step] at h
  split at h
  · next hp => exact .inl ⟨hp, by cases h; rfl⟩
  · next rest hp => exact .inr (.inl ⟨rest, hp, by cases h; rfl⟩)
  · next a rest hp =>
    simp only [performAccess, State.withPending_params] at h
    split at h
    · next i hi => exact .inr (.inr (.inl ⟨a, rest, i, hp, hi, h⟩))
    · next r hr =>
      rcases rejectAccess_eq_next.1 h with ⟨w, why, rfl, ht⟩ | ⟨g, rfl, ht⟩
      · exact .inr (.inr (.inr (.inl ⟨a, rest, w, why, hp, hr, ht⟩)))
      · exact .inr (.inr (.inr (.inr ⟨a, rest, g, hp, hr, ht⟩)))

end Sys2Proof.Machine
end

