-- ==== Sys2Proof/Laws/Outcome.lean ====
section
/-! SUPPORT. How commands end, in the terms of the statements; what the invariant says of SEQ; and the step
on a command word. -/

namespace Sys2Proof.Machine

/-! ## Outcomes -/

theorem payloadBits_of_lt {p : Params} {v : Nat} (h : v < 2 ^ p.ew) : payloadBits p v = v :=
  Nat.mod_eq_of_lt h

theorem two_pow_tw_le_ew (p : Params) : 2 ^ p.tw ≤ 2 ^ p.ew :=
  Nat.pow_le_pow_right (by decide) (le_max_left _ _)

theorem two_pow_cw_le_ew (p : Params) : 2 ^ p.cw ≤ 2 ^ p.ew :=
  Nat.pow_le_pow_right (by decide) (le_max_right _ _)

theorem writeOutcome_eq_commandOutcome (s : State) {w : Word} {op e : BitVec 4} {r : BitVec 16} {a b : Nat}
    (hop : opField w = op) (ha : a < 2 ^ s.params.ew) (hb : b < 2 ^ s.params.ew) :
    s.writeOutcome w e r a b = s.commandOutcome w op e r a b := by
  simp [State.writeOutcome, State.commandOutcome, payloadBits_of_lt ha, payloadBits_of_lt hb,
    Status.afterCommand, hop]

theorem succeed_eq_commandOutcome (s : State) {w : Word} {op : BitVec 4} {r : BitVec 16}
    (hop : opField w = op) : s.succeed w r = s.commandOutcome w op 0 r 0 0 :=
  writeOutcome_eq_commandOutcome s hop (Nat.two_pow_pos _) (Nat.two_pow_pos _)

theorem raise_eq_commandOutcome (s : State) {w : Word} {op : BitVec 4} {e : BlockError}
    (hop : opField w = op) (ha : e.payload.1 < 2 ^ s.params.ew) (hb : e.payload.2 < 2 ^ s.params.ew) :
    s.raise w e = s.commandOutcome w op e.code 0 e.payload.1 e.payload.2 :=
  writeOutcome_eq_commandOutcome s hop ha hb

theorem illegal_eq_commandOutcome (s : State) {w : Word} {op : BitVec 4} (hop : opField w = op) :
    s.illegal w = s.commandOutcome w op 15 0 (w.toNat % 2 ^ s.params.ew) 0 := by
  simp [State.illegal, State.raise, State.writeOutcome, State.commandOutcome, BlockError.code,
    BlockError.payload, payloadBits, Status.afterCommand, hop]

/-! ## SEQ under the invariant -/

theorem State.Inv.read_isSome {s : State} (hi : s.Inv) (k : Nat) :
    (s.seq.read k).isSome ↔ k < min s.count 43 := by
  rw [Memory.read_isSome, hi.written, List.mem_range]
  rfl

theorem State.Inv.read_fits {s : State} (hi : s.Inv) {k t : Nat} (h : s.seq.read k = some t) :
    t < 2 ^ s.params.tw :=
  hi.samplesFit _ (Memory.mem_of_read h)

/-- A slice within the written entries is read whole, and its timings fit TW bits. -/
theorem State.Inv.slice {s : State} (hi : s.Inv) {base len : Nat} (h : base + len ≤ min s.count 43) :
    ∃ ts, s.seq.slice base len = .ok ts ∧ ts.length = len ∧
      (∀ k, k < len → s.seq.read (base + k) = ts[k]?) ∧ ∀ x ∈ ts, x < 2 ^ s.params.tw := by
  obtain ⟨ts, hts⟩ := Memory.slice_isOk (m := s.seq) (base := base) (len := len)
    fun k _ h2 => (hi.read_isSome k).2 (by omega)
  obtain ⟨h1, h2⟩ := Memory.slice_eq_ok.1 hts
  refine ⟨ts, hts, h1, h2, fun x hx => ?_⟩
  obtain ⟨k, hk, rfl⟩ := List.mem_iff_getElem.1 hx
  exact hi.read_fits ((h2 k (by omega)).trans (List.getElem?_eq_getElem hk))

/-! ## The step on a command word -/

theorem step_commandWord {s : State} {rest : List HostEvent} {w : Word}
    (hp : s.pending = .access (.write 0 w.toNat) :: rest) :
    step s =
      match decodeCommand w with
      | .ok i => exec i (s.withPending rest)
      | .error _ => .next ((s.withPending rest).illegal w) := by
  simp only [step, hp, performAccess, decode, regAt, Reg.width, w.isLt, if_true, decodeWrite,
    BitVec.ofNat_toNat, BitVec.setWidth_eq]
  split
  · next i hi => split at hi <;> simp_all
  · next r hr =>
    split at hr
    · cases hr
    · cases hr; simp_all [rejectAccess]

end Sys2Proof.Machine
end

