-- ==== Sys2Proof/Laws/PerInstr.lean ====
section
/-! SUPPORT. Laws of the instructions as syntax, one lemma per constructor: the access that asks for a
well-formed operation is inside the host interface (spec/10_state.md rule R10). -/

namespace Sys2Proof.Laws.AccessInside

open Sys2Proof Sys2Proof.Machine

/-- The access of a well-formed operation names a register of the map and fits its width. -/
def Statement (i : Instr) : Prop :=
  ∀ p : Params, i.wellFormed p = true → accessInside p (encode i)

/-- A command word fits the 32 bits of CMD. -/
theorem command_inside (p : Params) (w : Word) : accessInside p (.write 0 w.toNat) :=
  ⟨.cmd, rfl, w.isLt⟩

theorem clear : Statement .clear := fun p _ => command_inside p clearWord

theorem classify (m : BitVec 8) : Statement (.classify m) := fun p _ => command_inside p (classifyWord m)

theorem decbit : Statement .decbit := fun p _ => command_inside p decbitWord

theorem decval (base len bits : BitVec 8) : Statement (.decval base len bits) :=
  fun p _ => command_inside p (decvalWord base len bits)

theorem chksum : Statement .chksum := fun p _ => command_inside p chksumWord

theorem decode : Statement .decode := fun p _ => command_inside p decodeWord

theorem push (t : Nat) : Statement (.push t) := fun _ h => ⟨.sample, rfl, of_decide_eq_true h⟩

theorem seta (v : Nat) : Statement (.seta v) := fun _ h => ⟨.opa, rfl, of_decide_eq_true h⟩

theorem setb (v : Nat) : Statement (.setb v) := fun _ h => ⟨.opb, rfl, of_decide_eq_true h⟩

theorem rd (r : Reg) : Statement (.rd r) := fun _ _ => by
  cases r <;> simp [accessInside, encode, Reg.index]

end Sys2Proof.Laws.AccessInside
end

