-- ==== Sys2Proof/Laws/Run.lean ====
section
/-! SUPPORT. A run of the machine, one step at a time. -/

namespace Sys2Proof.Machine

/-- What a next state of the machine of given widths comes from. -/
theorem machineStep_eq_next {p : Params} {c d : Session} :
    machineStep p c = .next d ↔ ∃ t, step (c.atWidths p) = .next t ∧ t.toSession = d := by
  unfold machineStep
  split <;> simp_all

theorem core_run_zero (s : State) : core.run 0 s = .next s := rfl

/-- A run goes on from the next state of its first step. -/
theorem run_succ {M : Host.Core} {n : Nat} {u v : M.State} (h : M.step u = .next v) :
    M.run (n + 1) u = M.run n v := by
  simp [Host.Core.run, h]

theorem core_run_succ {n : Nat} {s t : State} (h : step s = .next t) : core.run (n + 1) s = core.run n t :=
  run_succ (M := core) h

theorem machine_run_succ {p : Params} {n : Nat} {c d : Session} (h : machineStep p c = .next d) :
    (machine p).run (n + 1) c = (machine p).run n d :=
  run_succ (M := machine p) h

end Sys2Proof.Machine
end

