-- ==== Sys2Proof/Tests/Slice0.lean ====
section
/-! SUPPORT. The model's own tests, with their expected results from spec/95_test_vectors.md, and a witness
for the hypotheses of each statement that has some. -/

namespace Sys2Proof.Tests

open Sys2Proof Sys2Proof.Machine

/-! ## Helpers -/

/-- A fact about the next state of an outcome, if there is one. -/
def after {α : Type} (o : Result) (f : State → α) : Option α :=
  match o with
  | .next t => some (f t)
  | .fault _ => none
  | .refused _ => none

/-- The four outcome registers as OUTCOME reads them (R46). -/
def outcome (s : State) : Word × BitVec 16 × Nat × Nat := (s.status.word, s.result, s.errA, s.errB)

/-- The state after reset and one PUSH per timing of a list of at most 43. -/
def holding (ts : List Nat) : State :=
  { State.reset with count := ts.length, seq := (List.range ts.length).zip ts }

/-- The state in which the host is about to make one access. -/
def about (a : Access) (s : State) : State := s.withPending [.access a]

/-- Vector S1, which the document decodes to 0c10. -/
def frameS1 : List Nat :=
  [8532, 3624] ++
  [402, 550, 467, 524, 489, 491, 580, 392, 454, 1700, 440, 1607, 475, 534, 501, 591] ++
  [498, 443, 364, 574, 477, 591, 394, 1412, 452, 511, 382, 423, 448, 494, 539, 507] ++
  [453, 1321, 572, 1132, 452, 415, 539, 1165] ++ [583]

/-- Vector S2, which the document decodes to cafe. -/
def frameS2 : List Nat :=
  [8332, 4021] ++
  [498, 1732, 537, 1454, 361, 546, 513, 580, 441, 1378, 445, 361, 471, 1722, 511, 598] ++
  [547, 1794, 440, 1754, 376, 1126, 491, 1736, 475, 1213, 512, 1373, 594, 1441, 360, 558] ++
  [383, 454, 369, 531, 580, 1393, 419, 1631] ++ [520]

/-- A block built with CW = 6 (section 7.3), its count at 63 and SAT as given. -/
def saturated (sat : Bool) : State :=
  { holding (List.replicate 43 480) with
    params := { tw := 32, cw := 6 }
    count := 63
    status := { err := 0, done := false, sat := sat, op := 0 } }

/-! ## WellFormed: an ill-formed term for each check -/

theorem test_push_too_wide_ill_formed : (Instr.push (2 ^ 32)).wellFormed Params.default = false := by decide
theorem test_seta_too_wide_ill_formed : (Instr.seta (2 ^ 16)).wellFormed ⟨16, 6⟩ = false := by decide
theorem test_setb_too_wide_ill_formed : (Instr.setb (2 ^ 32)).wellFormed Params.default = false := by decide
theorem test_push_widest_well_formed : (Instr.push (2 ^ 32 - 1)).wellFormed Params.default = true := by decide

/-! ## Decode: words written out from R41, R42 and R46 (op, z, c, b, a) -/

theorem test_decode_clear :
    decodeCommand 0b0001_0000_00000000_00000000_00000000#32 = .ok .clear := by decide
theorem test_decode_classify :
    decodeCommand 0b0010_0000_00000000_00000000_00010010#32 = .ok (.classify 18#8) := by decide
theorem test_decode_decbit :
    decodeCommand 0b0011_0000_00000000_00000000_00000000#32 = .ok .decbit := by decide
theorem test_decode_decval :
    decodeCommand 0b0100_0000_00000100_00001000_00100010#32 = .ok (.decval 34#8 8#8 4#8) := by decide
theorem test_decode_chksum :
    decodeCommand 0b0101_0000_00000000_00000000_00000000#32 = .ok .chksum := by decide
theorem test_decode_decode :
    decodeCommand 0b0110_0000_00000000_00000000_00000000#32 = .ok .decode := by decide
theorem test_decode_push : decode Params.default (.write 2 8532) = .ok (.push 8532) := by decide
theorem test_decode_seta : decode Params.default (.write 4 402) = .ok (.seta 402) := by decide
theorem test_decode_setb : decode Params.default (.write 5 550) = .ok (.setb 550) := by decide
theorem test_decode_rd : decode Params.default (.read 8) = .ok (.rd .errB) := by decide

/-- Vectors I1 to I10: words that are illegal by their bits. -/
theorem test_illegal_words :
    [0x00000000#32, 0x70000000#32, 0xF0000000#32, 0xFFFFFFFF#32].map decodeCommand =
      List.replicate 4 (.error .reservedOpcode) ∧
    [0x10000001#32, 0x61000000#32, 0x20000100#32, 0x21000012#32, 0x30000001#32, 0x50010000#32].map
      decodeCommand = List.replicate 6 (.error .nonzeroField) := by decide

theorem test_encode_decval : encode (.decval 34#8 8#8 4#8) = .write 0 0x40040822 := by decide

/-- The rows of opcode_table.json in the host's numbering. -/
theorem test_table_words :
    decodeTableWord 32 0x10000000 = some .clear ∧ decodeTableWord 32 0x20000000 = some (.classify 0) ∧
    decodeTableWord 32 0x30000000 = some .decbit ∧ decodeTableWord 32 0x40000000 = some (.decval 0 0 0) ∧
    decodeTableWord 32 0x50000000 = some .chksum ∧ decodeTableWord 32 0x60000000 = some .decode ∧
    decodeTableWord 8 2 = some (.push 0) ∧ decodeTableWord 8 4 = some (.seta 0) ∧
    decodeTableWord 8 5 = some (.setb 0) ∧ decodeTableWord 8 0 = some (.rd .cmd) := by decide

theorem test_table_word_runs_first :
    after (step (State.reset.withFetchWord 32 0x60000000)) outcome = some (0x611#32, 0, 0, 0) := by decide

/-! ## The functions -/

/-- Vectors T2, T3, T4, T5, T22, T25, T30. -/
theorem test_classifier :
    isTimingValid 360 1 = true ∧ isTimingValid 359 1 = false ∧ isTimingValid 600 1 = true ∧
    isTimingValid 601 1 = false ∧ isTimingValid 0 0 = false ∧ isTimingValid 122400 255 = true ∧
    isTimingValid 4294967295 255 = false := by decide

/-- Vectors B6, B12, B16, B19. -/
theorem test_decode_bit :
    decodeBit 600 1800 = .ok true ∧ decodeBit 1440 1440 = .error (.abnormalLedOnBitValue 1440) ∧
    decodeBit 480 1079 = .error (.abnormalLedOffBitValue 1079) ∧
    decodeBit 700 900 = .error (.abnormalLedOnBitValue 700) := by decide

/-- Vectors V1, V5, V8, V11, V15 (in 4 bits). -/
theorem test_decode_value :
    decodeValue [480, 1440, 480, 480, 480, 1440, 480, 480] 4 = .ok 10 ∧
    decodeValue [480] 0 = .error (.wrongTimingsNumber 0 1) ∧
    decodeValue [9999, 9999] 4 = .error (.wrongTimingsNumber 8 2) ∧
    decodeValue [480, 1440, 480, 900, 700, 480, 480, 480] 4 = .error (.abnormalLedOffBitValue 900) ∧
    decodeValue [480, 1440, 480, 480, 480, 480, 480, 480] 4 = .ok 8 := by decide

/-- Vectors K2, K3, K10, K12 and R84. -/
theorem test_checksum :
    calculateChecksum 0xFFFF#16 = 0xC ∧ calculateChecksum 0x86F7#16 = 0x4 ∧
    calculateChecksum 0x1234#16 = 0xA ∧ calculateChecksum 0x0088#16 = 0 := by decide

theorem test_frame_s1 : decodeFrame frameS1 = .ok 0x0C10 := by decide
theorem test_frame_s2 : decodeFrame frameS2 = .ok 0xCAFE := by decide

/-- Vectors F6, M3 and M1. -/
theorem test_frame_errors :
    decodeFrame (frameS1 ++ [480, 480]) = .error (.wrongTimingsNumber 43 45) ∧
    decodeFrame ((frameS1.set 2 700).set 36 359) = .error (.abnormalLedOnBitValue 359) ∧
    decodeFrame ((frameS1.set 0 6479).set 42 601) = .error .wrongPreamble := by decide

/-- Vector F11, the frame the spec writes out for 0x86F7. -/
theorem test_etalon_frame :
    etalonFrame 0x86F7#16 =
      [8640, 3840, 480, 1440, 480, 480, 480, 480, 480, 480, 480, 480, 480, 1440, 480, 1440, 480, 480] ++
      [480, 1440, 480, 1440, 480, 1440, 480, 1440, 480, 480, 480, 1440, 480, 1440, 480, 1440] ++
      [480, 480, 480, 1440, 480, 480, 480, 480, 480] := by decide

/-! ## Operations, one step each -/

/-- The worked example of R50. -/
theorem test_classify :
    after (step (about (.write 0 0x20000001) { State.reset with opa := 360 })) outcome =
      some (0x210#32, 1, 0, 0) := by decide

/-- The worked example of R60, its error. -/
theorem test_decbit_error :
    after (step (about (.write 0 0x30000000) { State.reset with opa := 480, opb := 900 })) outcome =
      some (0x317#32, 0, 900, 0) := by decide

/-- Vectors V22 and V31. -/
theorem test_decval :
    after (step (about (.write 0 0x40102002) (holding frameS1))) outcome =
      some (0x410#32, 0x0C10#16, 0, 0) := by decide
theorem test_decval_illegal :
    after (step (about (.write 0 0x4001022A) (holding frameS1))) outcome =
      some (0x41F#32, 0, 0x4001022A, 0) := by decide

/-- Vector K14: OPA[31:16] is ignored. -/
theorem test_chksum :
    after (step (about (.write 0 0x50000000) { State.reset with opa := 0x186F7 })) outcome =
      some (0x510#32, 4, 0, 0) := by decide

/-- Vectors F1 and F27. -/
theorem test_decode :
    after (step (about (.write 0 0x60000000) (holding frameS1))) outcome =
      some (0x610#32, 0x0C10#16, 0, 0) := by decide
theorem test_decode_mismatch :
    after (step (about (.write 0 0x60000000) (holding (frameS1.set 33 1440)))) outcome =
      some (0x618#32, 0, 13, 14) := by decide

/-- Vector C4: after CLEAR. -/
theorem test_clear :
    after (step (about (.write 0 0x10000000) (holding frameS1))) (fun t => (outcome t, t.count, t.seq)) =
      some ((0x110#32, 0, 0, 0), 0, []) := by decide

/-- The worked example of R111, its second PUSH. -/
theorem test_push :
    after (step (about (.write 2 3624) (holding [8532]))) (fun t => (t.count, t.seq, t.status.word)) =
      some (2, [(0, 8532), (1, 3624)], 0#32) := by decide

/-- Section 7.3: the 64th PUSH at CW = 6, and DECODE under SAT. -/
theorem test_push_saturates :
    after (step (about (.write 2 480) (saturated false))) (fun t => (t.count, t.status.sat)) =
      some (63, true) := by decide
theorem test_decode_under_sat :
    after (step (about (.write 0 0x60000000) (saturated true))) (fun t => (t.count, outcome t)) =
      some (63, 0x63F#32, 0, 0x60000000, 0) := by decide

theorem test_seta : after (step (about (.write 4 7) State.reset)) (fun t => (t.opa, t.opb)) = some (7, 0) := by
  decide
theorem test_setb : after (step (about (.write 5 9) State.reset)) (fun t => (t.opa, t.opb)) = some (0, 9) := by
  decide

/-- Vectors C2 and the worked example of R113: STATUS and SAMPLE. -/
theorem test_rd_status :
    after (step (about (.read 1) { State.reset with status := ⟨1, true, false, 6⟩ })) (fun t => t.reads) =
      some [0x611] := by decide
theorem test_rd_sample : after (step (about (.read 2) (holding [8532]))) (fun t => t.reads) = some [0] := by decide

/-- Vector I2: a reserved opcode. -/
theorem test_illegal_command :
    after (step (about (.write 0 0x70000000) (holding [8532])))
      (fun t => (t.cmd, outcome t, t.count)) =
      some (0x70000000#32, (0x71F#32, 0, 0x70000000, 0), 1) := by decide

/-- Vector C7: a write to a read-only register. -/
theorem test_read_only_write_ignored :
    after (step (about (.write 6 0xFFFF) State.reset)) id = some State.reset := by decide

/-! ## The host shell -/

theorem test_shell_rendering : hex4 0x0C10#16 = "0c10".toList ∧ hex4 0xABCD#16 = "abcd".toList := by decide
/-- Vectors H4, H6, H9 and H13. -/
theorem test_shell_lines :
    decodeText 32 [' ', ' ', ' ', Char.ofNat 9, Char.ofNat 10] = .error (.frame .emptySequence) ∧
    decodeText 32 "abc".toList = .error (.parseFailure "abc".toList) ∧
    decodeText 32 "+8532 480".toList = .error (.parseFailure "+8532".toList) ∧
    decodeText 32 "4294967295".toList = .error (.frame (.wrongTimingsNumber 43 1)) := by decide

/-! ## Witnesses: concrete states and operands that meet the hypotheses of the statements -/

theorem holding_s1_inv : (holding frameS1).Inv where
  widths := by decide
  countFits := by decide
  opaFits := by decide
  opbFits := by decide
  errAFits := by decide
  errBFits := by decide
  written := by decide
  samplesFit := by decide
  satAtMax := by decide
  opOfCmd := by decide
  codeLegal := by decide
  errorNoResult := by decide
  successNoPayload := by decide
  beforeFirst := by decide

theorem holding_s1_outcomeInv : (holding frameS1).OutcomeInv where
  empty := by decide
  count := by decide
  preamble := by decide
  epilogue := by decide
  mark := by decide
  space := by decide
  checksum := by decide
  illegal := by decide

/-- The invariants do not look at the run. -/
theorem inv_withPending {s : State} (h : s.Inv) (rest : List HostEvent) : (s.withPending rest).Inv :=
  ⟨h.1, h.2, h.3, h.4, h.5, h.6, h.7, h.8, h.9, h.10, h.11, h.12, h.13, h.14⟩

theorem outcomeInv_withPending {s : State} (h : s.OutcomeInv) (rest : List HostEvent) :
    (s.withPending rest).OutcomeInv :=
  ⟨h.1, h.2, h.3, h.4, h.5, h.6, h.7, h.8⟩

/-! ### Encoding -/

theorem witness_DecodeInvertsEncode : (Instr.push (2 ^ 32 - 1)).wellFormed Params.default = true := by decide

theorem witness_EncodeInvertsDecode :
    decode Params.default (.write 0 0x40FFFFFF) = .ok (.decval 255#8 255#8 255#8) := by decide

/-! ### Accesses and reset -/

theorem witness_StepRunsDecodedInstruction :
    (about (.write 0 0x60000000) (holding frameS1)).pending = .access (.write 0 0x60000000) :: [] ∧
    decode (about (.write 0 0x60000000) (holding frameS1)).params (.write 0 0x60000000) = .ok .decode := by
  decide

theorem witness_IdleBlockKeepsState : (holding frameS1).pending = [] := rfl

theorem witness_ResetEventRestoresReset :
    ((holding frameS1).withPending [.reset, issue .decode]).pending = .reset :: [issue .decode] := rfl

/-- The same state: a reset event before a command. -/
theorem witness_ResetEventKeepsBuildAndRun :
    ((holding frameS1).withPending [.reset, issue .decode]).pending = .reset :: [issue .decode] := rfl

/-- The all-ones value of each read-only register fits it. -/
theorem witness_ReadOnlyWriteIgnored :
    ∀ r ∈ [Reg.status, .count, .result, .errA, .errB],
      2 ^ r.width Params.default - 1 < 2 ^ r.width Params.default ∧
      (about (.write r.index (2 ^ r.width Params.default - 1)) State.reset).pending =
        .access (.write r.index (2 ^ r.width Params.default - 1)) :: [] := by decide

/-- The lowest index outside the map, and the lowest value too wide for a 16-bit and a TW-bit register. -/
theorem witness_OutsideAccessRefused :
    (8 < 9 ∧ (about (.read 9) State.reset).pending = .access (.read 9) :: [] ∧
      (about (.write 9 0) State.reset).pending = .access (.write 9 0) :: []) ∧
    (2 ^ Reg.result.width Params.default ≤ 0x10000 ∧
      (about (.write 6 0x10000) State.reset).pending = .access (.write Reg.result.index 0x10000) :: []) ∧
    2 ^ State.reset.params.tw ≤ 0x100000000 := by decide

/-- A word for each item of R44, in a state in which it is illegal: I1, I2, I6, I5, I7, V33, I12, and DECODE
under SAT. -/
theorem witness_IllegalCommandOutcome :
    commandIllegal (holding frameS1) 0x00000000#32 ∧ commandIllegal (holding frameS1) 0x70000000#32 ∧
    commandIllegal (holding frameS1) 0x61000000#32 ∧ commandIllegal (holding frameS1) 0x10000001#32 ∧
    commandIllegal (holding frameS1) 0x20000100#32 ∧ commandIllegal (holding frameS1) 0x40110000#32 ∧
    commandIllegal (holding frameS1) 0x4001022A#32 ∧ commandIllegal (saturated true) 0x60000000#32 ∧
    (about (.write 0 0x60000000) (saturated true)).pending =
      .access (.write 0 (0x60000000#32).toNat) :: [] := by
  refine ⟨?_, ?_, ?_, ?_, ?_, ?_, ?_, ?_, ?_⟩ <;> decide

/-- The last legal slice and bit count, and DECODE. -/
theorem witness_LegalCommandNotIllegal :
    ¬ commandIllegal (holding frameS1) 0x4010200B#32 ∧ ¬ commandIllegal (holding frameS1) 0x60000000#32 ∧
    (after (step (about (.write 0 0x60000000) (holding frameS1))) fun _ => true) = some true := by decide

/-! ### Sub-blocks -/

theorem witness_ClassifierWindow : 1 ≤ 1 ∧ 1 ≤ 255 := by decide

/-- A pair for each row of R62, at the ends of the windows. -/
theorem witness_DecodeBitTable :
    ((360 ≤ 360 ∧ 360 ≤ 600) ∧ (360 ≤ 600 ∧ 600 ≤ 600)) ∧
    ((360 ≤ 600 ∧ 600 ≤ 600) ∧ (1080 ≤ 1080 ∧ 1080 ≤ 1800)) ∧
    ((360 ≤ 600 ∧ 600 ≤ 600) ∧ ¬(360 ≤ 1079 ∧ 1079 ≤ 600) ∧ ¬(1080 ≤ 1079 ∧ 1079 ≤ 1800)) ∧
    ¬(360 ≤ 359 ∧ 359 ≤ 600) := by decide

theorem witness_DecbitCompletes :
    ({ State.reset with opa := 600, opb := 2 ^ 32 - 1 } : State).opa < 2 ^ State.reset.params.tw ∧
    ({ State.reset with opa := 600, opb := 2 ^ 32 - 1 } : State).opb < 2 ^ State.reset.params.tw := by decide

theorem witness_ZeroBitCount :
    [480] ≠ [] ∧ (43#8).toNat ≤ min (holding frameS1).count 43 := by decide

/-- The largest legal decode, at the end of the frame. -/
theorem witness_DecvalCompletes :
    (holding frameS1).Inv ∧ (16#8).toNat ≤ 16 ∧
    (11#8).toNat + (32#8).toNat ≤ min (holding frameS1).count 43 := ⟨holding_s1_inv, by decide⟩

theorem witness_ChecksumIgnoresNibbleOrder :
    [8#4, 6#4, 15#4, 7#4].Perm [7#4, 15#4, 6#4, 8#4] := by decide

/-- The counts 0, 42 and 44. -/
theorem witness_CountDecidesBeforeContent :
    (frameS1.take 42).length ≠ 0 ∧ (frameS1.take 42).length ≠ 43 ∧
    State.reset.status.sat = false ∧ State.reset.count = 0 ∧
    (∀ n ∈ [42, 44], ({ holding frameS1 with count := n } : State).params.wf ∧
      n < 2 ^ (holding frameS1).params.cw ∧
      ({ holding frameS1 with count := n } : State).status.sat = false ∧ n ≠ 0 ∧ n ≠ 43) := by decide

theorem witness_DecodeIllegalUnderSat : (saturated true).status.sat = true := rfl

/-- A frame for each gate of R93: F7, one of 44 timings, F14, F19, F25, F22, F27, F1. -/
theorem witness_FrameGatesInOrder :
    (([] : List Nat).length = 0 ∧ (frameS1 ++ [1]).length ≠ 0 ∧ (frameS1 ++ [1]).length ≠ 43) ∧
    ((frameS1.set 0 6479).length = 43 ∧ ¬(6480 ≤ (frameS1.set 0 6479).getD 0 0)) ∧
    ((frameS1.set 42 601).length = 43 ∧ ¬((frameS1.set 42 601).getD 42 0 ≤ 600)) ∧
    ((frameS1.set 35 1801).length = 43 ∧
      decodeValue (((frameS1.set 35 1801).drop 34).take 8) 4 = .error (.abnormalLedOffBitValue 1801)) ∧
    ((frameS1.set 3 601).length = 43 ∧
      decodeValue (((frameS1.set 3 601).drop 34).take 8) 4 = .ok 13 ∧
      decodeValue (((frameS1.set 3 601).drop 2).take 32) 16 = .error (.abnormalLedOffBitValue 601)) ∧
    ((frameS1.set 33 1440).length = 43 ∧
      decodeValue (((frameS1.set 33 1440).drop 34).take 8) 4 = .ok 13 ∧
      decodeValue (((frameS1.set 33 1440).drop 2).take 32) 16 = .ok 0x0C11 ∧
      13 ≠ (calculateChecksum (BitVec.ofNat 16 0x0C11)).toNat) ∧
    (frameS1.length = 43 ∧ (6480 ≤ frameS1.getD 0 0 ∧ frameS1.getD 0 0 ≤ 10800 ∧
      2880 ≤ frameS1.getD 1 0 ∧ frameS1.getD 1 0 ≤ 4800) ∧
      (360 ≤ frameS1.getD 42 0 ∧ frameS1.getD 42 0 ≤ 600) ∧
      decodeValue ((frameS1.drop 2).take 32) 16 = .ok 0x0C10 ∧
      decodeValue ((frameS1.drop 34).take 8) 4 =
        .ok (calculateChecksum (BitVec.ofNat 16 0x0C10)).toNat) := by decide

theorem witness_FrameErrorKinds :
    (frameS1.set 33 1440).length = 43 ∧
    decodeFrame (frameS1.set 33 1440) = .error (.checksumMismatch 13 14) := by decide

theorem witness_DecodeCompletes :
    (holding frameS1).Inv ∧ (holding frameS1).status.sat = false ∧ (holding frameS1).count = 43 :=
  ⟨holding_s1_inv, rfl, rfl⟩

/-! ### Frame control -/

/-- The widest timing, and a count on either side of saturation. -/
theorem witness_PushCompletes :
    2 ^ 32 - 1 < 2 ^ State.reset.params.tw ∧
    ({ saturated false with count := 62 } : State).count < 2 ^ (saturated false).params.cw - 1 ∧
    2 ^ (saturated false).params.cw - 1 ≤ (saturated false).count := by decide

theorem witness_SetOperandCompletes : 2 ^ 32 - 1 < 2 ^ State.reset.params.tw := by decide

theorem witness_CommandsKeepFrameAndOperands :
    isJudgement .decode = true ∧
    (after (exec .decode (holding frameS1)) fun _ => true) = some true := by decide

/-- A PUSH, and an operation that is none. -/
theorem witness_DataMovesKeepOutcome :
    (isJudgement (.push 480) = false ∧ Instr.push 480 ≠ .clear ∧
      (after (exec (.push 480) (holding frameS1)) fun _ => true) = some true) ∧
    (isJudgement (.rd .status) = false ∧ Instr.rd .status ≠ .clear ∧ (∀ x, Instr.rd .status ≠ .push x) ∧
      (after (exec (.rd .status) (holding frameS1)) fun _ => true) = some true) :=
  ⟨by decide, by decide, by decide, fun x h => Instr.noConfusion h, by decide⟩

/-! ### Invariants and rules of the whole machine -/

theorem witness_StepKeepsInvariant :
    (about (.write 0 0x60000000) (holding frameS1)).Inv ∧
    (after (step (about (.write 0 0x60000000) (holding frameS1))) fun _ => true) = some true :=
  ⟨inv_withPending holding_s1_inv _, by decide⟩

theorem witness_StepKeepsOutcomeInvariant :
    (about (.write 0 0x30000000) (holding frameS1)).Inv ∧
    (about (.write 0 0x30000000) (holding frameS1)).OutcomeInv ∧
    (after (step (about (.write 0 0x30000000) (holding frameS1))) fun _ => true) = some true :=
  ⟨inv_withPending holding_s1_inv _, outcomeInv_withPending holding_s1_outcomeInv _, by decide⟩

theorem witness_StepKeepsMemoryForm :
    (about (.write 2 480) (holding [8532, 3624])).seq.wf ∧
    (after (step (about (.write 2 480) (holding [8532, 3624]))) fun _ => true) = some true := by decide

theorem witness_StepKeepsWidths :
    (after (step (about (.write 2 480) (saturated false))) fun _ => true) = some true := by decide

theorem witness_InvariantStepsComplete :
    (about (.read 8) (holding frameS1)).Inv ∧ accessInside (holding frameS1).params (.read 8) ∧
    accessInside (holding frameS1).params (.write 2 (2 ^ 32 - 1)) :=
  ⟨inv_withPending holding_s1_inv _, Nat.le_refl 8, .sample, rfl, by decide⟩

theorem witness_FrameGrowsUntilCleared :
    (about (.write 2 480) (holding frameS1)).Inv ∧
    (after (step (about (.write 2 480) (holding frameS1))) fun _ => true) = some true ∧
    (∀ rest, (about (.write 2 480) (holding frameS1)).pending ≠ .reset :: rest) ∧
    (∀ rest, (about (.write 2 480) (holding frameS1)).pending ≠ .access (.write 0 0x10000000) :: rest) :=
  ⟨inv_withPending holding_s1_inv _, by decide, by simp [about], by simp [about]⟩

theorem witness_OperandsChangeOnlyBySet :
    after (step (about (.write 4 7) State.reset)) (fun t => decide (t.opa ≠ State.reset.opa)) = some true ∧
    after (step (about (.write 5 7) State.reset)) (fun t => decide (t.opb ≠ State.reset.opb)) = some true := by
  decide

theorem witness_RepeatedCommandSameOutcome :
    isJudgement .decode = true ∧
    (after (exec .decode (holding (frameS1.set 33 1440))) fun _ => true) = some true := by decide

/-- Two states that differ in an earlier outcome and in what has been read. -/
theorem witness_OutcomeDependsOnInputsOnly :
    (isJudgement .decode = true ∨ Instr.decode = .clear) ∧
    holding frameS1 ≠ { holding frameS1 with result := 7, errB := 1, reads := [3] } ∧
    (after (exec .decode (holding frameS1)) fun _ => true) = some true := by decide

theorem witness_FrameRunDecodesItsTimings :
    ((holding frameS2).withPending (frameScript frameS1 ++ outcomeScript)).Inv ∧
    frameS1.length < 2 ^ (holding frameS2).params.cw ∧
    (∀ x ∈ frameS1, x < 2 ^ (holding frameS2).params.tw) := by
  refine ⟨⟨?_, ?_, ?_, ?_, ?_, ?_, ?_, ?_, ?_, ?_, ?_, ?_, ?_, ?_⟩, ?_, ?_⟩ <;> decide

/-! ### The host shell -/

theorem witness_BlankLineIsEmptySequence :
    ∀ c ∈ [' ', Char.ofNat 9, Char.ofNat 13], c.toNat ∈ [0x20, 0x09, 0x0A, 0x0B, 0x0C, 0x0D] := by
  have all : [' ', Char.ofNat 9, Char.ofNat 13].all
      (fun c => [0x20, 0x09, 0x0A, 0x0B, 0x0C, 0x0D].contains c.toNat) = true := by decide
  intro c h
  simpa using List.all_eq_true.1 all c h

theorem witness_JoinedTokensDecode :
    ["480".toList, "08532".toList] ≠ [] ∧
    (∀ tok ∈ ["480".toList, "08532".toList], tok ≠ [] ∧ ∀ c ∈ tok, isWhitespace c = false) ∧
    ["480".toList, "08532".toList].map (parseToken 32) = [480, 8532].map some := by
  refine ⟨by decide, fun tok h => ?_, by decide⟩
  have all : ["480".toList, "08532".toList].all
      (fun tok => !tok.isEmpty && tok.all fun c => !isWhitespace c) = true := by decide
  simpa using List.all_eq_true.1 all tok h

theorem witness_ParsingPrecedesCounting :
    tokens "480 abc 5".toList = ["480".toList] ++ "abc".toList :: ["5".toList] ∧
    (∀ tok ∈ ["480".toList], (parseToken 32 tok).isSome = true) ∧
    parseToken 32 "abc".toList = none := by decide

theorem witness_ShellAgreesWithBlock :
    ((holding frameS1).withPending (frameScript [480, 3])).Inv ∧
    tokens "480 3".toList ≠ [] ∧
    parseTokens (holding frameS1).params.tw (tokens "480 3".toList) = .ok [480, 3] ∧
    [480, 3].length < 2 ^ (holding frameS1).params.cw :=
  ⟨inv_withPending holding_s1_inv _, by decide, by decide, by decide⟩

/-! ## The widths as the argument of the machine (R5, R23) -/

/-- A reset session in which the host is about to make one access. -/
def sessionAbout (a : Access) : Session := { Session.reset with pending := [.access a] }

/-- A timing of 17 bits is outside the interface of a block built with TW = 16 (R5, R10). -/
theorem test_machine_16_refuses_17_bits :
    (match machineStep ⟨16, 6⟩ (sessionAbout (.write 2 65536)) with
      | .next _ => none
      | .fault _ => none
      | .refused q => some q) = some (.valueTooWide .sample 65536) := by decide

/-- The same timing enters a block built with TW = 17. -/
theorem test_machine_17_takes_17_bits :
    (match machineStep ⟨17, 6⟩ (sessionAbout (.write 2 65536)) with
      | .next d => some (d.count, d.seq)
      | .fault _ => none
      | .refused _ => none) = some (1, [(0, 65536)]) := by decide

theorem witness_MachineResetAtItsWidths : Params.wf ⟨16, 6⟩ ∧ Params.wf ⟨17, 64⟩ := by decide

theorem witness_MachineKeepsInvariant :
    ((sessionAbout (.write 2 65535)).atWidths ⟨16, 6⟩).Inv ∧
    (match machineStep ⟨16, 6⟩ (sessionAbout (.write 2 65535)) with
      | .next d => some d.seq
      | .fault _ => none
      | .refused _ => none) = some [(0, 65535)] := by
  refine ⟨⟨?_, ?_, ?_, ?_, ?_, ?_, ?_, ?_, ?_, ?_, ?_, ?_, ?_, ?_⟩, ?_⟩ <;> decide

theorem witness_MachineDecodesFrames :
    (({ Session.reset with pending := frameScript frameS1 ++ outcomeScript } : Session).atWidths ⟨16, 6⟩).Inv ∧
    frameS1.length < 2 ^ 6 ∧ (∀ x ∈ frameS1, x < 2 ^ 16) := by
  refine ⟨⟨?_, ?_, ?_, ?_, ?_, ?_, ?_, ?_, ?_, ?_, ?_, ?_, ?_, ?_⟩, ?_, ?_⟩ <;> decide

end Sys2Proof.Tests
end

section
/-! PROOF. The block after reset at every allowed width, and the invariants there
(spec/00_scope.md rule R5; spec/10_state.md rules R22, R23). -/

namespace Sys2Proof.Machine

/-- Every clause of the invariant speaks of one error code, so a block without an error meets it (R130). -/
theorem State.outcomeInv_of_err_eq_zero {s : State} (h : s.status.err = 0) : s.OutcomeInv := by
  constructor <;> simp [h]

/-! ## The reset block, whatever state the reset event finds -/

/-- Every register reads 0 after reset, SAMPLE too (R22). -/
@[simp] theorem readReg_resetBlock (s : State) (r : Reg) : readReg s.resetBlock r = 0 := by
  cases r with
  | status =>
    show (Status.word { err := 0, done := false, sat := false, op := 0 }).toNat = 0
    decide
  | _ => rfl

/-- The reset block is empty, has judged nothing and fits every width, so only the widths themselves are
asked of the state before (R5, R22). -/
theorem State.resetBlock_inv {s : State} (h : s.params.wf) : s.resetBlock.Inv where
  widths := h
  countFits := Nat.two_pow_pos s.params.cw
  opaFits := Nat.two_pow_pos s.params.tw
  opbFits := Nat.two_pow_pos s.params.tw
  errAFits := Nat.two_pow_pos s.params.ew
  errBFits := Nat.two_pow_pos s.params.ew
  written := rfl
  samplesFit := by simp
  satAtMax := by simp
  opOfCmd := show 0#4 = opField 0 by decide
  codeLegal := by simp [blockCodes]
  errorNoResult := by simp
  successNoPayload := by simp
  beforeFirst := by simp

theorem State.resetBlock_outcomeInv (s : State) : s.resetBlock.OutcomeInv :=
  State.outcomeInv_of_err_eq_zero rfl

/-! ## The machine's reset at given widths -/

/-- The machine's reset session, at any widths, is a fixed point of the reset event. -/
@[simp] theorem State.resetBlock_reset_atWidths (p : Params) :
    (Session.reset.atWidths p).resetBlock = Session.reset.atWidths p := rfl

/-- Settles O57: the session the machine starts with is a reset block at its widths, and every fact asked of
it holds of all reset blocks. -/
theorem machineResetAtItsWidths : Obligations.MachineResetAtItsWidths := by
  intro p hp
  rw [← State.resetBlock_reset_atWidths p]
  exact ⟨readReg_resetBlock _, fun _ => rfl, State.resetBlock_inv hp, State.resetBlock_outcomeInv _,
    Memory.wf_nil⟩

end Sys2Proof.Machine
end

section
/-! PROOF. Accesses and the operations they decode to: what decoding an access of a given register answers, and
the access an operation was decoded from (spec/10_state.md rule R10; spec/30_encoding.md rules R41, R42, R45). -/

namespace Sys2Proof

theorem Reg.index_le (r : Reg) : r.index ≤ 8 := by cases r <;> decide

theorem regAt_eq_none {i : Nat} (h : 8 < i) : regAt i = none := by
  cases hr : regAt i with
  | none => rfl
  | some r =>
    have hi := regAt_index hr
    have hle := r.index_le
    omega

/-! ## Decoding by register -/

theorem decode_read_of_regAt_none (p : Params) {i : Nat} (h : regAt i = none) :
    decode p (.read i) = .error (.noRegister i) := by
  simp [decode, h]

theorem decode_write_of_regAt_none (p : Params) {i : Nat} (v : Nat) (h : regAt i = none) :
    decode p (.write i v) = .error (.noRegister i) := by
  simp [decode, h]

theorem decode_write_of_lt {p : Params} {r : Reg} {v : Nat} (h : v < 2 ^ r.width p) :
    decode p (.write r.index v) = decodeWrite r v := by
  simp [decode, h]

theorem decode_write_of_le {p : Params} {r : Reg} {v : Nat} (h : 2 ^ r.width p ≤ v) :
    decode p (.write r.index v) = .error (.tooWide r v) := by
  simp [decode, Nat.not_lt.2 h]

/-- An operation comes from a read of a register, or from a write of a value that fits its register. -/
theorem decode_eq_ok {p : Params} {a : Access} {i : Instr} (h : decode p a = .ok i) :
    (∃ r, a = .read r.index ∧ i = .rd r) ∨
    (∃ r v, a = .write r.index v ∧ v < 2 ^ r.width p ∧ decodeWrite r v = .ok i) := by
  cases a with
  | read k =>
    simp only [decode] at h
    split at h
    · next r hr => cases h; exact .inl ⟨r, by rw [regAt_index hr], rfl⟩
    · cases h
  | write k v =>
    simp only [decode] at h
    split at h
    · next r hr =>
      split at h
      · next hv => exact .inr ⟨r, v, by rw [regAt_index hr], hv, h⟩
      · cases h
    · cases h

/-! ## Command words -/

theorem noOperand_eq_ok {w : Word} {i j : Instr} (h : noOperand w i = .ok j) :
    j = i ∧ w = opField w ++ 0#4 ++ 0#8 ++ 0#8 ++ 0#8 := by
  unfold noOperand at h
  split at h
  · next hf =>
    obtain ⟨hz, hc, hb, ha⟩ := hf
    refine ⟨by cases h; rfl, ?_⟩
    conv_lhs => rw [← word_eq_fields w, hz, hc, hb, ha]
    rfl
  · cases h

theorem multiplierOperand_eq_ok {w : Word} {j : Instr} (h : multiplierOperand w = .ok j) :
    j = .classify (aField w) ∧ w = opField w ++ 0#4 ++ 0#8 ++ 0#8 ++ aField w := by
  unfold multiplierOperand at h
  split at h
  · next hf =>
    obtain ⟨hz, hc, hb⟩ := hf
    refine ⟨by cases h; rfl, ?_⟩
    conv_lhs => rw [← word_eq_fields w, hz, hc, hb]
    rfl
  · cases h

theorem sliceOperands_eq_ok {w : Word} {j : Instr} (h : sliceOperands w = .ok j) :
    j = .decval (aField w) (bField w) (cField w) ∧
      w = opField w ++ 0#4 ++ cField w ++ bField w ++ aField w := by
  unfold sliceOperands at h
  split at h
  · next hz =>
    refine ⟨by cases h; rfl, ?_⟩
    conv_lhs => rw [← word_eq_fields w, hz]
    rfl
  · cases h

/-- A legal command word is the word that the encoder writes for its command. -/
theorem encode_of_decodeCommand {w : Word} {i : Instr} (h : decodeCommand w = .ok i) :
    encode i = .write 0 w.toNat := by
  unfold decodeCommand at h
  split at h
  · next ho =>
    obtain ⟨rfl, hw⟩ := noOperand_eq_ok h
    rw [hw, ho]
    rfl
  split at h
  · next ho =>
    obtain ⟨rfl, hw⟩ := multiplierOperand_eq_ok h
    conv_rhs => rw [hw, ho]
    rfl
  split at h
  · next ho =>
    obtain ⟨rfl, hw⟩ := noOperand_eq_ok h
    rw [hw, ho]
    rfl
  split at h
  · next ho =>
    obtain ⟨rfl, hw⟩ := sliceOperands_eq_ok h
    conv_rhs => rw [hw, ho]
    rfl
  split at h
  · next ho =>
    obtain ⟨rfl, hw⟩ := noOperand_eq_ok h
    rw [hw, ho]
    rfl
  split at h
  · next ho =>
    obtain ⟨rfl, hw⟩ := noOperand_eq_ok h
    rw [hw, ho]
    rfl
  · cases h

/-- The access an operation was decoded from is the one that encodes it. -/
theorem encode_of_decode {p : Params} {a : Access} {i : Instr} (h : decode p a = .ok i) : encode i = a := by
  rcases decode_eq_ok h with ⟨r, rfl, rfl⟩ | ⟨r, v, rfl, hv, hw⟩
  · rfl
  · cases r with
    | cmd =>
      simp only [decodeWrite] at hw
      split at hw
      · next j hj =>
        cases hw
        have hv : v < 2 ^ 32 := hv
        rw [encode_of_decodeCommand hj, BitVec.toNat_ofNat, Nat.mod_eq_of_lt hv]
        rfl
      · cases hw
    | sample => cases hw; rfl
    | opa => cases hw; rfl
    | opb => cases hw; rfl
    | status => cases hw
    | count => cases hw
    | result => cases hw
    | errA => cases hw
    | errB => cases hw

end Sys2Proof
end

section
/-! PROOF. How commands end: each concludes with a value or an error that only the inputs of its rule decide, and
writes the outcome registers alone (spec/10_state.md rules R16, R21; spec/60_exceptions.md rule R133). -/

namespace Sys2Proof.Machine

/-! ## Every ending of a command is `State.conclude` -/

theorem State.succeed_eq_conclude (s : State) (w : Word) (v : BitVec 16) :
    s.succeed w v = s.conclude w (.ok v.toNat) := by
  simp [State.conclude]

theorem State.raise_eq_conclude (s : State) (w : Word) (e : BlockError) :
    s.raise w e = s.conclude w (.error e) := rfl

theorem State.illegal_eq_conclude (s : State) (w : Word) :
    s.illegal w = s.conclude w (.error (.illegalCommand w)) := rfl

section conclude

variable (s : State) (w : Word) (r : Except BlockError Nat)

@[simp] theorem State.conclude_params : (s.conclude w r).params = s.params := by cases r <;> rfl
@[simp] theorem State.conclude_cmd : (s.conclude w r).cmd = w := by cases r <;> rfl
@[simp] theorem State.conclude_sat : (s.conclude w r).status.sat = s.status.sat := by cases r <;> rfl
@[simp] theorem State.conclude_count : (s.conclude w r).count = s.count := by cases r <;> rfl
@[simp] theorem State.conclude_opa : (s.conclude w r).opa = s.opa := by cases r <;> rfl
@[simp] theorem State.conclude_opb : (s.conclude w r).opb = s.opb := by cases r <;> rfl
@[simp] theorem State.conclude_seq : (s.conclude w r).seq = s.seq := by cases r <;> rfl
@[simp] theorem State.conclude_pending : (s.conclude w r).pending = s.pending := by cases r <;> rfl
@[simp] theorem State.conclude_reads : (s.conclude w r).reads = s.reads := by cases r <;> rfl

end conclude

/-- Of the state before, the outcome registers keep SAT alone, and the payload is cut at the widths. -/
theorem State.conclude_outcome_congr {s u : State} (hp : s.params = u.params) (hs : s.status.sat = u.status.sat)
    (w : Word) (r : Except BlockError Nat) :
    (u.conclude w r).cmd = (s.conclude w r).cmd ∧ (u.conclude w r).status = (s.conclude w r).status ∧
    (u.conclude w r).result = (s.conclude w r).result ∧ (u.conclude w r).errA = (s.conclude w r).errA ∧
    (u.conclude w r).errB = (s.conclude w r).errB := by
  cases r <;> simp [State.conclude, State.succeed, State.raise, Status.afterCommand, hp, hs]

/-! ## What a command reads -/

/-- The states agree on all that a command may read besides its word (R21). -/
structure State.SameInputs (s u : State) : Prop where
  params : s.params = u.params
  opa : s.opa = u.opa
  opb : s.opb = u.opb
  count : s.count = u.count
  sat : s.status.sat = u.status.sat
  seq : s.seq = u.seq

/-- A judging command that completes concludes with a result, and with the same one from every state that
agrees on the inputs (R16, R21). -/
theorem exec_judgement {i : Instr} {s t : State} (hj : isJudgement i = true) (h : exec i s = .next t) :
    ∃ w r, t = s.conclude w r ∧ ∀ u, s.SameInputs u → exec i u = .next (u.conclude w r) := by
  cases i with
  | classify m =>
    cases h
    exact ⟨_, _, s.succeed_eq_conclude _ _, fun u e => by
      simp only [exec, execClassify, ← State.succeed_eq_conclude, e.opa]⟩
  | decbit =>
    cases h
    exact ⟨_, _, rfl, fun u e => by simp only [exec, execDecbit, e.opa, e.opb]⟩
  | decval base len bits =>
    have hl (u : State) (e : s.SameInputs u) : illegalSlice u base len bits = illegalSlice s base len bits := by
      unfold illegalSlice writtenLen
      rw [e.count]
    simp only [exec, execDecval] at h ⊢
    split at h
    · next hi =>
      cases h
      exact ⟨_, _, s.illegal_eq_conclude _, fun u e => by rw [hl u e, if_pos hi, State.illegal_eq_conclude]⟩
    · next hi =>
      obtain ⟨ts, hts, rfl⟩ := withSlice_eq_next.1 h
      exact ⟨_, _, rfl, fun u e => by
        rw [hl u e, if_neg hi]; exact withSlice_eq_next.2 ⟨ts, e.seq ▸ hts, rfl⟩⟩
  | chksum =>
    cases h
    exact ⟨_, _, s.succeed_eq_conclude _ _, fun u e => by
      simp only [exec, execChksum, chksumOperand, ← State.succeed_eq_conclude, e.opa]⟩
  | decode =>
    simp only [exec, execDecode] at h ⊢
    split at h
    · next hs =>
      cases h
      exact ⟨_, _, s.illegal_eq_conclude _, fun u e => by
        rw [← e.sat, if_pos hs, State.illegal_eq_conclude]⟩
    · next hs =>
      split at h
      · next er hg =>
        cases h
        exact ⟨_, _, s.raise_eq_conclude _ _, fun u e => by
          rw [← e.sat, if_neg hs, ← e.count, hg]; rfl⟩
      · next hg =>
        obtain ⟨ts, hts, rfl⟩ := withSlice_eq_next.1 h
        exact ⟨_, _, rfl, fun u e => by
          rw [← e.sat, if_neg hs, ← e.count, hg]
          exact withSlice_eq_next.2 ⟨ts, e.seq ▸ hts, rfl⟩⟩
  | clear | push _ | seta _ | setb _ | rd _ => cases hj

theorem exec_clear (s : State) : exec .clear s = .next (s.clearFrame.conclude clearWord (.ok 0)) := rfl

/-- Only commands write CMD, and all of them but CLEAR judge. -/
theorem isJudgement_of_encode {i : Instr} {w : Word} (he : encode i = .write 0 w.toNat) (hc : i ≠ .clear) :
    isJudgement i = true := by
  cases i with
  | clear => exact absurd rfl hc
  | push _ | seta _ | setb _ | rd _ => simp [encode] at he
  | classify _ | decbit | decval _ _ _ | chksum | decode => rfl

/-- Everything an operation that completes can do, by its kind. -/
theorem exec_kinds {i : Instr} {s t : State} (h : exec i s = .next t) :
    (i = .clear ∧ ∃ r, t = s.clearFrame.conclude clearWord r) ∨
    (isJudgement i = true ∧ ∃ w r, t = s.conclude w r) ∨
    (∃ v, i = .push v ∧ v < 2 ^ s.params.tw ∧ t = s.pushSample v) ∨
    (∃ v, i = .seta v ∧ v < 2 ^ s.params.tw ∧ t = s.setOpa v) ∨
    (∃ v, i = .setb v ∧ v < 2 ^ s.params.tw ∧ t = s.setOpb v) ∨
    (∃ r, i = .rd r ∧ t = s.recordRead (readReg s r)) := by
  rcases exec_cases h with ⟨rfl, ht⟩ | ⟨w, _, _, _, _, he, hc, -⟩ | hdata
  · exact .inl ⟨rfl, _, ht.trans (State.succeed_eq_conclude _ _ _)⟩
  · have hj := isJudgement_of_encode he hc
    obtain ⟨w, r, ht, -⟩ := exec_judgement hj h
    exact .inr (.inl ⟨hj, w, r, ht⟩)
  · exact .inr (.inr hdata)

/-! ## The frames of the operations -/

/-- Settles O37: such a command concludes, and concluding writes the outcome registers alone. -/
theorem commandsKeepFrameAndOperands : Obligations.CommandsKeepFrameAndOperands := by
  intro i s t hj h
  obtain ⟨w, r, rfl, -⟩ := exec_judgement hj h
  simp

/-- Settles O38, by the one update of each data move. -/
theorem dataMovesKeepOutcome : Obligations.DataMovesKeepOutcome := by
  intro i s t hj hc h
  rcases exec_kinds h with ⟨hi, -⟩ | ⟨hi, -⟩ | ⟨v, rfl, -, rfl⟩ | ⟨v, rfl, -, rfl⟩ | ⟨v, rfl, -, rfl⟩ | ⟨r, rfl, rfl⟩
  · exact absurd hi hc
  · simp [hj] at hi
  · simp
  · simp
  · simp
  · simp

/-- Settles O48: a judging command's result is decided by the shared inputs, CLEAR's is fixed, and the outcome
registers hold that result. -/
theorem outcomeDependsOnInputsOnly : Obligations.OutcomeDependsOnInputsOnly := by
  rintro i s₁ s₂ t₁ hi hp ha hb hc hs hq h
  rcases hi with hj | rfl
  · obtain ⟨w, r, rfl, hr⟩ := exec_judgement hj h
    exact ⟨_, hr s₂ ⟨hp, ha, hb, hc, hs, hq⟩, State.conclude_outcome_congr hp hs w r⟩
  · cases h
    refine ⟨_, exec_clear s₂, ?_⟩
    exact State.conclude_outcome_congr (s := s₁.clearFrame) (u := s₂.clearFrame)
      hp rfl clearWord (.ok 0)

end Sys2Proof.Machine
end

section
/-! PROOF. The invariant of the registers and SEQ is kept by every update, and so by every operation, access and
step (spec/10_state.md rules R10 to R17; spec/20_memory.md rules R30, R32). -/

namespace Sys2Proof.Machine

/-! ## The named updates -/

theorem BlockError.code_mem_blockCodes (e : BlockError) : e.code ∈ blockCodes := by
  cases e <;> simp [BlockError.code, blockCodes]

theorem BlockError.code_ne_zero (e : BlockError) : e.code ≠ 0 := by
  cases e <;> simp [BlockError.code]

theorem payloadBits_lt (p : Params) (v : Nat) : payloadBits p v < 2 ^ p.ew :=
  Nat.mod_lt _ (Nat.two_pow_pos _)

namespace State.Inv

variable {s : State}

theorem withPending (h : s.Inv) (rest : List HostEvent) : (s.withPending rest).Inv := { h with }

theorem recordRead (h : s.Inv) (v : Nat) : (s.recordRead v).Inv := { h with }

theorem setOpa (h : s.Inv) {v : Nat} (hv : v < 2 ^ s.params.tw) : (s.setOpa v).Inv := { h with opaFits := hv }

theorem setOpb (h : s.Inv) {v : Nat} (hv : v < 2 ^ s.params.tw) : (s.setOpb v).Inv := { h with opbFits := hv }

/-- The empty frame: no count, no saturation, nothing written (R110). -/
theorem clearFrame (h : s.Inv) : s.clearFrame.Inv :=
  { h with
    countFits := Nat.two_pow_pos _
    written := rfl
    samplesFit := by simp
    satAtMax := by simp }

/-- A value leaves no payload and an error no RESULT, and both leave the word and its opcode (R12 to R15). -/
theorem conclude (h : s.Inv) (w : Word) (r : Except BlockError Nat) : (s.conclude w r).Inv := by
  cases r with
  | ok v =>
    exact { h with
      errAFits := payloadBits_lt _ _
      errBFits := payloadBits_lt _ _
      opOfCmd := rfl
      codeLegal := by simp [State.conclude, State.succeed, blockCodes]
      errorNoResult := fun he => absurd rfl he
      successNoPayload := fun _ => ⟨Nat.zero_mod _, Nat.zero_mod _⟩
      beforeFirst := fun hd => nomatch hd }
  | error e =>
    exact { h with
      errAFits := payloadBits_lt _ _
      errBFits := payloadBits_lt _ _
      opOfCmd := rfl
      codeLegal := e.code_mem_blockCodes
      errorNoResult := fun _ => rfl
      successNoPayload := fun he => absurd he e.code_ne_zero
      beforeFirst := fun hd => nomatch hd }

/-- COUNT has at least 6 bits, so SEQ is full before the count saturates (R5, R111). -/
theorem lt_countMax_of_lt (h : s.Inv) (hc : s.count < 43) : s.count < countMax s.params := by
  have : 2 ^ 6 ≤ 2 ^ s.params.cw := Nat.pow_le_pow_right (by decide) h.widths.2
  unfold countMax
  omega

theorem count_le_countMax (h : s.Inv) : s.count ≤ countMax s.params := Nat.le_sub_one_of_lt h.countFits

/-- Nothing is written from COUNT on, so a write there appends a cell. -/
theorem write_count (h : s.Inv) (t : Nat) : s.seq.write s.count t = s.seq ++ [(s.count, t)] := by
  refine Memory.write_eq_append t fun c hm => ?_
  have hk : c.1 ∈ List.range (writtenLen s) := h.written ▸ List.mem_map_of_mem hm
  exact (List.mem_range.1 hk).trans_le (min_le_left _ _)

/-- A PUSH appends the entry that the count then covers; past entry 42 only the count moves, and at its largest
value only SAT (R111). -/
theorem pushSample (h : s.Inv) {t : Nat} (ht : t < 2 ^ s.params.tw) : (s.pushSample t).Inv where
  widths := h.widths
  countFits := by
    have hm : countMax s.params < 2 ^ s.params.cw := Nat.sub_one_lt (Nat.two_pow_pos _).ne'
    have hc := h.countFits
    simp only [State.pushSample_count, State.pushSample_params]
    split <;> omega
  opaFits := h.opaFits
  opbFits := h.opbFits
  errAFits := h.errAFits
  errBFits := h.errBFits
  written := by
    have hw := h.written
    by_cases hc : s.count < frameLen
    · rw [writtenLen, min_eq_left hc.le] at hw
      simp only [State.pushSample_seq, if_pos hc, h.write_count, writtenLen, State.pushSample_count,
        if_pos (h.lt_countMax_of_lt hc), min_eq_left (Nat.succ_le_of_lt hc), List.map_append, hw, List.range_succ]
      rfl
    · have hl : writtenLen (s.pushSample t) = writtenLen s := by
        simp only [writtenLen, State.pushSample_count]
        split <;> omega
      simp only [State.pushSample_seq, if_neg hc, hl, hw]
  samplesFit := by
    intro c hc
    simp only [State.pushSample_seq] at hc
    split at hc
    · rcases Memory.mem_write hc with rfl | hc
      · exact ht
      · exact h.samplesFit c hc
    · exact h.samplesFit c hc
  satAtMax := by
    have hle := h.count_le_countMax
    simp only [State.pushSample_status, State.pushSample_count, State.pushSample_params]
    split
    · next hn => exact fun hs => absurd (h.satAtMax hs) hn.ne
    · next hn => exact fun _ => by omega
  opOfCmd := h.opOfCmd
  codeLegal := h.codeLegal
  errorNoResult := h.errorNoResult
  successNoPayload := h.successNoPayload
  beforeFirst := h.beforeFirst

/-! ## Operations and steps -/

theorem illegal (h : s.Inv) (w : Word) : (s.illegal w).Inv := h.conclude w (.error (.illegalCommand w))

theorem of_exec (h : s.Inv) {i : Instr} {t : State} (he : exec i s = .next t) : t.Inv := by
  rcases exec_kinds he with ⟨-, r, rfl⟩ | ⟨-, w, r, rfl⟩ | ⟨v, -, hv, rfl⟩ | ⟨v, -, hv, rfl⟩ | ⟨v, -, hv, rfl⟩ |
    ⟨r, -, rfl⟩
  · exact h.clearFrame.conclude _ _
  · exact h.conclude w r
  · exact h.pushSample hv
  · exact h.setOpa hv
  · exact h.setOpb hv
  · exact h.recordRead _

end State.Inv

/-- Settles O40, over the kinds of steps: each takes its event off the run and makes one update that keeps the
invariant. -/
theorem stepKeepsInvariant : Obligations.StepKeepsInvariant := by
  intro s t h hst
  rcases step_cases hst with ⟨-, rfl⟩ | ⟨rest, -, rfl⟩ | ⟨a, rest, i, -, -, he⟩ | ⟨a, rest, w, why, -, -, rfl⟩ |
    ⟨a, rest, r, -, -, rfl⟩
  · exact h
  · exact State.resetBlock_inv h.widths
  · exact (h.withPending rest).of_exec he
  · exact (h.withPending rest).illegal w
  · exact h.withPending rest

end Sys2Proof.Machine
end

section
/-! PROOF. What steps leave alone: the widths, the frame until it is cleared, the operands until they are set; and
the machine of given widths (spec/10_state.md rules R11, R15, R23; spec/45_frame_control.md rules R110 to R112). -/

namespace Sys2Proof.Machine

theorem exec_params {i : Instr} {s t : State} (h : exec i s = .next t) : t.params = s.params := by
  rcases exec_kinds h with ⟨-, r, rfl⟩ | ⟨-, w, r, rfl⟩ | ⟨v, -, -, rfl⟩ | ⟨v, -, -, rfl⟩ | ⟨v, -, -, rfl⟩ |
    ⟨r, -, rfl⟩ <;> simp

/-- Settles O43. -/
theorem stepKeepsWidths : Obligations.StepKeepsWidths := by
  intro s t h
  rcases step_cases h with ⟨-, rfl⟩ | ⟨rest, -, rfl⟩ | ⟨a, rest, i, -, -, he⟩ | ⟨a, rest, w, why, -, -, rfl⟩ |
    ⟨a, rest, r, -, -, rfl⟩
  · rfl
  · rfl
  · exact (exec_params he).trans (s.withPending_params rest)
  · rfl
  · rfl

/-! ## The frame between two CLEARs -/

/-- The frame of `t` extends that of `s`: COUNT has not fallen, SAT has not been lost and no written entry has
changed. -/
def State.FrameLe (s t : State) : Prop :=
  s.count ≤ t.count ∧ (s.status.sat = true → t.status.sat = true) ∧
    ∀ k x, s.seq.read k = some x → t.seq.read k = some x

theorem State.FrameLe.of_eq {s t : State} (hc : t.count = s.count) (hs : t.status.sat = s.status.sat)
    (hq : t.seq = s.seq) : s.FrameLe t :=
  ⟨hc.ge, fun h => hs.trans h, fun _ _ h => hq ▸ h⟩

/-- A PUSH writes at COUNT, where the invariant has nothing written (R32, R111). -/
theorem State.Inv.frameLe_pushSample {s : State} (h : s.Inv) (v : Nat) : s.FrameLe (s.pushSample v) := by
  refine ⟨?_, fun hs => ?_, fun k x hk => ?_⟩
  · simp only [State.pushSample_count]
    split <;> omega
  · simp only [State.pushSample_status]
    split
    · exact hs
    · rfl
  · have hlt : k < min s.count 43 := (h.read_isSome k).1 (by simp [hk])
    simp only [State.pushSample_seq]
    split
    · rw [Memory.read_write_of_ne _ _ (by omega), hk]
    · exact hk

theorem State.FrameLe.of_exec {s t : State} {i : Instr} (h : s.Inv) (hc : i ≠ .clear) (he : exec i s = .next t) :
    s.FrameLe t := by
  rcases exec_kinds he with ⟨hi, -⟩ | ⟨-, w, r, rfl⟩ | ⟨v, -, -, rfl⟩ | ⟨v, -, -, rfl⟩ | ⟨v, -, -, rfl⟩ | ⟨r, -, rfl⟩
  · exact absurd hi hc
  · exact .of_eq (by simp) (by simp) (by simp)
  · exact h.frameLe_pushSample v
  · exact .of_eq rfl rfl rfl
  · exact .of_eq rfl rfl rfl
  · exact .of_eq rfl rfl rfl

/-- Settles O45: of all operations only CLEAR shrinks the frame, and the access that decodes to CLEAR is its
word. -/
theorem frameGrowsUntilCleared : Obligations.FrameGrowsUntilCleared := by
  intro s t h hst hreset hclear
  rcases step_cases hst with ⟨-, rfl⟩ | ⟨rest, hp, -⟩ | ⟨a, rest, i, hp, hd, he⟩ | ⟨a, rest, w, why, -, -, rfl⟩ |
    ⟨a, rest, r, -, -, rfl⟩
  · exact State.FrameLe.of_eq rfl rfl rfl
  · exact absurd hp (hreset rest)
  · have hi : i ≠ .clear := by
      rintro rfl
      exact hclear rest (by rw [hp, ← encode_of_decode hd]; rfl)
    show (s.withPending rest).FrameLe t
    exact State.FrameLe.of_exec (h.withPending rest) hi he
  · exact State.FrameLe.of_eq rfl rfl rfl
  · exact State.FrameLe.of_eq rfl rfl rfl

/-! ## The operand registers -/

theorem exec_opa {i : Instr} {s t : State} (h : exec i s = .next t) : t.opa = s.opa ∨ i = .seta t.opa := by
  rcases exec_kinds h with ⟨-, r, rfl⟩ | ⟨-, w, r, rfl⟩ | ⟨v, -, -, rfl⟩ | ⟨v, rfl, -, rfl⟩ | ⟨v, -, -, rfl⟩ |
    ⟨r, -, rfl⟩ <;> simp

theorem exec_opb {i : Instr} {s t : State} (h : exec i s = .next t) : t.opb = s.opb ∨ i = .setb t.opb := by
  rcases exec_kinds h with ⟨-, r, rfl⟩ | ⟨-, w, r, rfl⟩ | ⟨v, -, -, rfl⟩ | ⟨v, -, -, rfl⟩ | ⟨v, rfl, -, rfl⟩ |
    ⟨r, -, rfl⟩ <;> simp

/-- Settles O46: an operand register changes by its own data write, and the access that decodes to one is
known. -/
theorem operandsChangeOnlyBySet : Obligations.OperandsChangeOnlyBySet := by
  intro s t h
  rcases step_cases h with ⟨-, rfl⟩ | ⟨rest, hp, -⟩ | ⟨a, rest, i, hp, hd, he⟩ | ⟨a, rest, w, why, -, -, rfl⟩ |
    ⟨a, rest, r, -, -, rfl⟩
  · exact ⟨fun hne => absurd rfl hne, fun hne => absurd rfl hne⟩
  · exact ⟨fun _ => .inl ⟨rest, hp⟩, fun _ => .inl ⟨rest, hp⟩⟩
  · have ha := encode_of_decode hd
    refine ⟨fun hne => .inr ⟨rest, ?_⟩, fun hne => .inr ⟨rest, ?_⟩⟩
    · have hi := (exec_opa he).resolve_left hne
      rw [hp, ← ha, hi, encode]
    · have hi := (exec_opb he).resolve_left hne
      rw [hp, ← ha, hi, encode]
  · exact ⟨fun hne => absurd rfl hne, fun hne => absurd rfl hne⟩
  · exact ⟨fun hne => absurd rfl hne, fun hne => absurd rfl hne⟩

/-! ## The machine of given widths -/

/-- A step at the widths `p` ends at the widths `p`. -/
theorem step_atWidths_eq_next {p : Params} {c : Session} {t : State} (h : step (c.atWidths p) = .next t) :
    t.toSession.atWidths p = t := by
  have hp : t.params = p := stepKeepsWidths _ _ h
  rw [← hp, State.toSession_atWidths]

/-- Settles O56: a next state holds its widths unchanged, so the machine loses nothing by dropping them. -/
theorem machineStepsAtItsWidths : Obligations.MachineStepsAtItsWidths := by
  intro p c
  unfold machineStep
  cases h : step (c.atWidths p) with
  | next t => exact congrArg _ (step_atWidths_eq_next h).symm
  | fault f => rfl
  | refused r => rfl

/-- Settles O58: the step at the machine's widths keeps the invariant and the widths. -/
theorem machineKeepsInvariant : Obligations.MachineKeepsInvariant := by
  intro p c d hc h
  obtain ⟨t, ht, rfl⟩ := machineStep_eq_next.1 h
  rw [step_atWidths_eq_next ht]
  exact stepKeepsInvariant _ _ hc ht

end Sys2Proof.Machine
end

section
/-! PROOF. The state after reset, and the accesses that do nothing or are refused
(spec/10_state.md rules R10, R22; spec/93_implementation_defined.md V6, V8). -/

namespace Sys2Proof.Machine

/-! ## The state after reset: the machine's reset at the default widths -/

/-- Settles O8. -/
theorem resetStateValues : Obligations.ResetStateValues := by
  obtain ⟨hreg, hseq, -⟩ := machineResetAtItsWidths Params.default (by decide)
  exact ⟨hreg, rfl, hseq⟩

/-- Settles O39. -/
theorem resetMeetsInvariants : Obligations.ResetMeetsInvariants := by
  obtain ⟨-, -, hinv⟩ := machineResetAtItsWidths Params.default (by decide)
  exact hinv

/-! ## Steps by what the access decodes to -/

theorem step_of_decode_ok {s : State} {a : Access} {rest : List HostEvent} {i : Instr}
    (hp : s.pending = .access a :: rest) (hd : decode s.params a = .ok i) :
    step s = exec i (s.withPending rest) := by
  simp [step, hp, performAccess, hd]

theorem step_of_decode_error {s : State} {a : Access} {rest : List HostEvent} {r : Reject}
    (hp : s.pending = .access a :: rest) (hd : decode s.params a = .error r) :
    step s = rejectAccess r (s.withPending rest) := by
  simp [step, hp, performAccess, hd]

/-- Settles O11: the access decodes to the rejection by name that leaves the state as it is. -/
theorem readOnlyWriteIgnored : Obligations.ReadOnlyWriteIgnored := by
  intro s rest r v hr hv hp
  have hw : decodeWrite r v = .error (.readOnly r) := by
    rcases hr with rfl | rfl | rfl | rfl | rfl <;> rfl
  exact step_of_decode_error hp ((decode_write_of_lt hv).trans hw)

theorem withTiming_of_le {s : State} {v : Nat} (h : 2 ^ s.params.tw ≤ v) (r : Reg) (k : State) :
    withTiming s r v k = .refused (.valueTooWide r v) :=
  if_neg (Nat.not_lt.2 h)

/-- Settles O12: such an access decodes to a rejection that gets no step, and a data write tests its value
first. -/
theorem outsideAccessRefused : Obligations.OutsideAccessRefused := by
  refine ⟨fun s rest i hi => ⟨fun hp => ?_, fun v hp => ?_⟩, fun s rest r v hv hp => ?_, fun s v hv => ?_⟩
  · exact step_of_decode_error hp (decode_read_of_regAt_none _ (regAt_eq_none hi))
  · exact step_of_decode_error hp (decode_write_of_regAt_none _ v (regAt_eq_none hi))
  · exact step_of_decode_error hp (decode_write_of_le hv)
  · exact ⟨withTiming_of_le hv _ _, withTiming_of_le hv _ _, withTiming_of_le hv _ _⟩

end Sys2Proof.Machine
end

section
/-! PROOF. What a frame can decode to: a value has 16 bits, and the payload of an error fits ERR_A and ERR_B, so
the host reads the result itself off the outcome registers
(spec/44_frame_decoder.md rule R91; spec/45_frame_control.md rule R114; spec/60_exceptions.md rule R131). -/

namespace Sys2Proof.Machine

/-! ## The outcome as the host reads it -/

/-- ERR_A and ERR_B can hold the payload of the error. -/
def BlockError.Fits (p : Params) (e : BlockError) : Prop := e.payload.1 < 2 ^ p.ew ∧ e.payload.2 < 2 ^ p.ew

/-- A code and its payload name one error. -/
theorem errorOfRegisters_code (e : BlockError) :
    errorOfRegisters e.code e.payload.1 e.payload.2 = some e := by
  cases e <;> simp [errorOfRegisters, BlockError.code, BlockError.payload]

/-- The host reads back what a command has concluded with. -/
theorem outcomeOf_conclude {s : State} {r : Except BlockError Nat} (w : Word)
    (hv : ∀ v, r = .ok v → v < 2 ^ 16) (he : ∀ e, r = .error e → e.Fits s.params) :
    outcomeOf (s.conclude w r) = some r := by
  cases r with
  | ok v =>
    have hv : v < 2 ^ 16 := hv v rfl
    simpa [outcomeOf, State.conclude, State.succeed] using hv
  | error e =>
    obtain ⟨ha, hb⟩ := he e rfl
    have hc : e.code ≠ 0#4 := e.code_ne_zero
    simp [outcomeOf, State.conclude, State.raise, hc, payloadBits_of_lt ha, payloadBits_of_lt hb,
      errorOfRegisters_code]

/-! ## Values -/

theorem decodePairs_lt {n : Nat} (hn : 0 < n) {ts : List Nat} {i acc v : Nat}
    (h : decodePairs n ts i acc = .ok v) (ha : acc < 2 ^ n) : v < 2 ^ n := by
  fun_induction decodePairs n ts i acc with
  | case1 => cases h
  | case2 on off ts i acc hb ih =>
    have hbit : 1 <<< (n - 1 - i) < 2 ^ n := by
      rw [Nat.one_shiftLeft]
      exact Nat.pow_lt_pow_right (by decide) (by omega)
    exact ih h (Nat.or_lt_two_pow ha hbit)
  | case3 on off ts i acc hb ih => exact ih h ha
  | case4 => cases h; exact ha

theorem decodeValue_lt {n : Nat} (hn : 0 < n) {ts : List Nat} {v : Nat} (h : decodeValue ts n = .ok v) :
    v < 2 ^ n := by
  unfold decodeValue at h
  split at h
  · cases h
  · exact decodePairs_lt hn h (Nat.two_pow_pos n)

theorem checksumGate_eq_ok {c d v : Nat} (h : checksumGate c d = .ok v) : v = d := by
  unfold checksumGate at h
  split at h <;> cases h
  rfl

/-- What passes every gate is the value of the data region. -/
theorem contentGates_eq_ok {ts : List Nat} {v : Nat} (h : contentGates ts = .ok v) :
    decodeValue (region ts dataLo dataLen) dataBits = .ok v := by
  unfold contentGates at h
  split at h
  · cases h
  split at h
  · cases h
  split at h
  · cases h
  split at h
  · cases h
  · next d hd => rw [checksumGate_eq_ok h, hd]

theorem decodeFrame_lt {ts : List Nat} {v : Nat} (h : decodeFrame ts = .ok v) : v < 2 ^ 16 := by
  unfold decodeFrame at h
  split at h
  · cases h
  · exact decodeValue_lt (by decide) (contentGates_eq_ok h)

/-! ## Errors -/

theorem BlockError.fits_of_lt {p : Params} (hp : p.wf) {e : BlockError}
    (ha : e.payload.1 < 2 ^ 16) (hb : e.payload.2 < 2 ^ 16) : e.Fits p := by
  have hle : 2 ^ 16 ≤ 2 ^ p.ew := (Nat.pow_le_pow_right (by decide) hp.1).trans (two_pow_tw_le_ew p)
  exact ⟨ha.trans_le hle, hb.trans_le hle⟩

theorem decodeBit_error_fits {p : Params} {on off : Nat} {e : BlockError} (h : decodeBit on off = .error e)
    (hon : on < 2 ^ p.tw) (hoff : off < 2 ^ p.tw) : e.Fits p := by
  have hle := two_pow_tw_le_ew p
  unfold decodeBit at h
  split at h
  · cases h; exact ⟨hon.trans_le hle, Nat.two_pow_pos _⟩
  split at h
  · cases h
  split at h
  · cases h
  · cases h; exact ⟨hoff.trans_le hle, Nat.two_pow_pos _⟩

theorem decodePairs_error_fits {p : Params} {n : Nat} {ts : List Nat} {i acc : Nat} {e : BlockError}
    (h : decodePairs n ts i acc = .error e) (hts : ∀ x ∈ ts, x < 2 ^ p.tw) : e.Fits p := by
  fun_induction decodePairs n ts i acc with
  | case1 on off ts i acc e' hb =>
    cases h
    exact decodeBit_error_fits hb (hts _ (by simp)) (hts _ (by simp))
  | case2 on off ts i acc hb ih => exact ih h fun x hx => hts x (by simp [hx])
  | case3 on off ts i acc hb ih => exact ih h fun x hx => hts x (by simp [hx])
  | case4 => cases h

/-- A region of a full frame has the length its field asks for, so only a timing can be wrong. -/
theorem decodeValue_region_error_fits {p : Params} {ts : List Nat} {lo n : Nat} {e : BlockError}
    (hl : lo + 2 * n ≤ ts.length) (h : decodeValue (region ts lo (2 * n)) n = .error e)
    (hts : ∀ x ∈ ts, x < 2 ^ p.tw) : e.Fits p := by
  have hlen : (region ts lo (2 * n)).length = 2 * n := by simp [region]; omega
  unfold decodeValue at h
  rw [if_neg (by simp [hlen])] at h
  exact decodePairs_error_fits h fun x hx => hts x (List.mem_of_mem_drop (List.mem_of_mem_take hx))

theorem contentGates_error_fits {p : Params} (hp : p.wf) {ts : List Nat} {e : BlockError}
    (hl : ts.length = frameLen) (h : contentGates ts = .error e) (hts : ∀ x ∈ ts, x < 2 ^ p.tw) : e.Fits p := by
  unfold contentGates at h
  split at h
  · cases h; exact BlockError.fits_of_lt hp (by decide) (by decide)
  split at h
  · cases h; exact BlockError.fits_of_lt hp (by decide) (by decide)
  split at h
  · next hc => cases h; exact decodeValue_region_error_fits (n := chkBits) (by rw [hl]; decide) hc hts
  next c hc =>
  split at h
  · next hd => cases h; exact decodeValue_region_error_fits (n := dataBits) (by rw [hl]; decide) hd hts
  · next d hd =>
    unfold checksumGate at h
    split at h <;> cases h
    have hc4 : c < 2 ^ 4 := decodeValue_lt (by decide) hc
    have ha4 := (calculateChecksum (BitVec.ofNat 16 d)).isLt
    exact BlockError.fits_of_lt hp (hc4.trans (by decide)) (ha4.trans (by decide))

theorem countGate_eq_ok {n : Nat} (h : countGate n = .ok ()) : n = frameLen := by
  unfold countGate at h
  split at h
  · cases h
  split at h
  · cases h
  · next hn => exact not_not.1 hn

theorem countGate_error_fits {p : Params} (hp : p.wf) {n : Nat} {e : BlockError} (h : countGate n = .error e)
    (hn : n < 2 ^ p.cw) : e.Fits p := by
  unfold countGate at h
  split at h
  · cases h; exact BlockError.fits_of_lt hp (by decide) (by decide)
  split at h
  · cases h
    have h43 : (BlockError.wrongTimingsNumber frameLen 0).Fits p :=
      BlockError.fits_of_lt hp (by decide) (by decide)
    exact ⟨h43.1, hn.trans_le (two_pow_cw_le_ew p)⟩
  · cases h

/-- The error of a frame that the block can hold fits its registers. -/
theorem decodeFrame_error_fits {p : Params} (hp : p.wf) {ts : List Nat} {e : BlockError}
    (h : decodeFrame ts = .error e) (hl : ts.length < 2 ^ p.cw) (hts : ∀ x ∈ ts, x < 2 ^ p.tw) : e.Fits p := by
  unfold decodeFrame at h
  split at h
  · next hg => cases h; exact countGate_error_fits hp hg hl
  · next hg => exact contentGates_error_fits hp (countGate_eq_ok hg) h hts

end Sys2Proof.Machine
end

section
/-! PROOF. The life of one frame: CLEAR, a PUSH per timing and DECODE run to decode_frame of the timings, on the
model and on the machine of any widths (spec/10_state.md rule R23; spec/45_frame_control.md rule R114). -/

namespace Sys2Proof.Machine

/-! ## The frame in the block -/

/-- The block's frame is the list of timings, none of them lost (R111). -/
structure State.HoldsFrame (s : State) (ts : List Nat) : Prop where
  count : s.count = ts.length
  sat : s.status.sat = false
  entries : ∀ k, k < ts.length → k < frameLen → s.seq.read k = ts[k]?

theorem State.clearFrame_holdsFrame (s : State) (w : Word) (r : Except BlockError Nat) :
    (s.clearFrame.conclude w r).HoldsFrame [] where
  count := by simp
  sat := by simp
  entries k hk := absurd hk (Nat.not_lt_zero k)

theorem State.HoldsFrame.withPending {s : State} {ts : List Nat} (h : s.HoldsFrame ts) (rest : List HostEvent) :
    (s.withPending rest).HoldsFrame ts := { h with }

theorem State.HoldsFrame.pushSample {s : State} {ts : List Nat} (h : s.HoldsFrame ts)
    (hl : ts.length < countMax s.params) (t : Nat) : (s.pushSample t).HoldsFrame (ts ++ [t]) where
  count := by simp [h.count, hl]
  sat := by simp [h.count, hl, h.sat]
  entries k hk hf := by
    rw [List.length_append, List.length_singleton] at hk
    simp only [State.pushSample_seq, h.count]
    rcases Nat.lt_succ_iff_lt_or_eq.1 hk with hlt | rfl
    · rw [List.getElem?_append_left hlt, ← h.entries k hlt hf]
      split
      · exact Memory.read_write_of_ne _ _ hlt.ne
      · rfl
    · rw [if_pos hf, Memory.read_write_self, List.getElem?_concat_length]

/-- DECODE concludes with decode_frame of the frame in the block, also where the count alone decides it
(R90, R92). -/
theorem State.HoldsFrame.exec_decode {s : State} {ts : List Nat} (h : s.HoldsFrame ts) :
    exec .decode s = .next (s.conclude decodeWord (decodeFrame ts)) := by
  simp only [exec, execDecode, h.sat, h.count, decodeFrame]
  rw [if_neg (by decide)]
  cases hg : countGate ts.length with
  | error e => rfl
  | ok u =>
    have hl := countGate_eq_ok hg
    have hslice : s.seq.slice 0 frameLen = .ok ts :=
      Memory.slice_eq_ok.2 ⟨hl, fun k hk => by rw [Nat.zero_add]; exact h.entries k (hl ▸ hk) hk⟩
    refine withSlice_eq_next.2 ⟨ts, hslice, ?_⟩
    simp only [hg]

/-! ## Runs -/

/-- A run that completes takes its first step and goes on from there. -/
theorem run_succ_eq_next {M : Host.Core} {n : Nat} {u v : M.State} :
    M.run (n + 1) u = .next v ↔ ∃ x, M.step u = .next x ∧ M.run n x = .next v := by
  simp only [Host.Core.run]
  split <;> simp_all

/-- A run ends with a last step. -/
theorem run_succ_last {M : Host.Core} {n : Nat} {u v w : M.State} (h : M.run n u = .next v)
    (hl : M.step v = .next w) : M.run (n + 1) u = .next w := by
  induction n generalizing u with
  | zero => cases h; exact run_succ hl
  | succ n ih =>
    obtain ⟨x, hx, hn⟩ := run_succ_eq_next.1 h
    rw [run_succ hx]
    exact ih hn

/-- The machine of given widths makes the model's run at those widths. -/
theorem machine_run_of_core_run {p : Params} {n : Nat} {c : Session} {t : State}
    (h : core.run n (c.atWidths p) = .next t) :
    (machine p).run n c = .next t.toSession ∧ t.toSession.atWidths p = t := by
  induction n generalizing c with
  | zero => cases h; exact ⟨rfl, rfl⟩
  | succ n ih =>
    obtain ⟨x, hx, hn⟩ := run_succ_eq_next.1 h
    have hd : machineStep p c = .next x.toSession := machineStep_eq_next.2 ⟨x, hx, rfl⟩
    rw [machine_run_succ hd]
    exact ih (step_atWidths_eq_next hx ▸ hn)

/-! ## The script of a frame -/

theorem step_clear {s : State} {rest : List HostEvent} (hp : s.pending = issue .clear :: rest) :
    step s = .next ((s.withPending rest).clearFrame.conclude clearWord (.ok 0)) :=
  step_commandWord hp

theorem step_push {s : State} {t : Nat} {rest : List HostEvent} (hp : s.pending = issue (.push t) :: rest)
    (ht : t < 2 ^ s.params.tw) : step s = .next ((s.withPending rest).pushSample t) := by
  have hd : decode s.params (encode (.push t)) = .ok (.push t) := decode_write_of_lt (r := .sample) ht
  rw [step_of_decode_ok hp hd]
  exact withTiming_eq_next.2 ⟨ht, rfl⟩

theorem step_decode {s : State} {rest : List HostEvent} (hp : s.pending = issue .decode :: rest) :
    step s = exec .decode (s.withPending rest) :=
  step_commandWord hp

/-- A PUSH per timing extends the frame in the block by the timings, while COUNT can count them. -/
theorem core_run_pushes {s : State} {us ts : List Nat} {rest : List HostEvent} (h : s.HoldsFrame us)
    (hp : s.pending = (ts.map fun t => issue (.push t)) ++ rest)
    (hl : us.length + ts.length < 2 ^ s.params.cw) (ht : ∀ x ∈ ts, x < 2 ^ s.params.tw) :
    ∃ u, core.run ts.length s = .next u ∧ u.HoldsFrame (us ++ ts) ∧ u.pending = rest ∧
      u.params = s.params ∧ u.opa = s.opa ∧ u.opb = s.opb ∧ u.reads = s.reads := by
  induction ts generalizing s us with
  | nil => exact ⟨s, rfl, by rwa [List.append_nil], hp, rfl, rfl, rfl, rfl⟩
  | cons t ts ih =>
    rw [List.length_cons] at hl
    have hmax : us.length < countMax s.params := by unfold countMax; omega
    have hstep := step_push hp (ht t List.mem_cons_self)
    have hframe := (h.withPending ((ts.map fun t => issue (.push t)) ++ rest)).pushSample hmax t
    have hcount : (us ++ [t]).length + ts.length < 2 ^ s.params.cw := by
      rw [List.length_append, List.length_singleton]
      omega
    obtain ⟨u, hrun, hu, hkept⟩ := ih hframe rfl hcount fun x hx => ht x (List.mem_cons_of_mem _ hx)
    rw [List.append_assoc, List.singleton_append] at hu
    exact ⟨u, (core_run_succ hstep).trans hrun, hu, hkept⟩

/-- The script of a frame runs to the conclusion of decode_frame of its timings (R114). -/
theorem core_run_frameScript {s : State} {ts : List Nat} {rest : List HostEvent}
    (hp : s.pending = frameScript ts ++ rest) (hl : ts.length < 2 ^ s.params.cw)
    (ht : ∀ x ∈ ts, x < 2 ^ s.params.tw) :
    ∃ u : State, core.run (ts.length + 2) s = .next (u.conclude decodeWord (decodeFrame ts)) ∧
      u.count = ts.length ∧ u.pending = rest ∧
      u.params = s.params ∧ u.opa = s.opa ∧ u.opb = s.opb ∧ u.reads = s.reads := by
  have hscript : s.pending = issue .clear :: ((ts.map fun t => issue (.push t)) ++ issue .decode :: rest) := by
    simp [hp, frameScript]
  obtain ⟨u, hrun, hu, hpend, hkept⟩ := core_run_pushes (rest := issue .decode :: rest)
    (State.clearFrame_holdsFrame (s.withPending _) clearWord (.ok 0)) rfl (by simpa using hl) (by simpa using ht)
  have hframe := hu.withPending rest
  have hdecode := (step_decode hpend).trans hframe.exec_decode
  refine ⟨u.withPending rest, ?_, hframe.count, rfl, hkept⟩
  exact run_succ_last (M := core) ((core_run_succ (step_clear hscript)).trans hrun) hdecode

/-- Settles O59: the machine makes the model's run of the frame's script, and the host reads its conclusion
back. -/
theorem machineDecodesFrames : Obligations.MachineDecodesFrames := by
  intro p c ts rest hi hl ht hp
  obtain ⟨u, hrun, hcount, hpend, hparams, -⟩ := core_run_frameScript (s := c.atWidths p) hp hl ht
  obtain ⟨hm, hw⟩ := machine_run_of_core_run hrun
  refine ⟨_, hm, ?_, by simpa using hcount, by simpa using hpend⟩
  rw [hw]
  refine outcomeOf_conclude decodeWord (fun v => decodeFrame_lt) fun e he => ?_
  rw [hparams]
  exact decodeFrame_error_fits hi.widths he hl ht

end Sys2Proof.Machine
end

section
/-! PROOF. What every step does with SEQ and with the host: it keeps the form of SEQ, it is the operation its access
decodes to, and under the invariant it completes (spec/10_state.md rule R10; spec/20_memory.md rules R30, R32;
spec/70_reset_and_hazards.md rule R156). -/

namespace Sys2Proof.Machine

/-- Settles O6: `withPending` is that update of the run. -/
theorem stepRunsDecodedInstruction : Obligations.StepRunsDecodedInstruction :=
  fun _ _ _ _ hp hd => step_of_decode_ok hp hd

/-! ## The form of SEQ -/

/-- A PUSH writes below 43 or not at all, whatever COUNT is (R30, R111). -/
theorem State.pushSample_seq_wf {s : State} (h : s.seq.wf) (t : Nat) : (s.pushSample t).seq.wf := by
  rw [State.pushSample_seq]
  split
  · next hc => exact Memory.write_wf h hc
  · exact h

theorem seq_wf_of_exec {i : Instr} {s t : State} (h : s.seq.wf) (he : exec i s = .next t) : t.seq.wf := by
  rcases exec_kinds he with ⟨-, r, rfl⟩ | ⟨-, w, r, rfl⟩ | ⟨v, -, -, rfl⟩ | ⟨v, -, -, rfl⟩ | ⟨v, -, -, rfl⟩ |
    ⟨r, -, rfl⟩
  · rw [State.conclude_seq]
    exact Memory.wf_nil
  · rwa [State.conclude_seq]
  · exact State.pushSample_seq_wf h v
  · exact h
  · exact h
  · exact h

/-- Settles O42: a reset or a CLEAR leaves the empty SEQ, a PUSH writes one entry below 43, and no other step
touches SEQ. -/
theorem stepKeepsMemoryForm : Obligations.StepKeepsMemoryForm := by
  intro s t h hst
  rcases step_cases hst with ⟨-, rfl⟩ | ⟨rest, -, rfl⟩ | ⟨a, rest, i, -, -, he⟩ | ⟨a, rest, w, why, -, -, rfl⟩ |
    ⟨a, rest, r, -, -, rfl⟩
  · exact h
  · exact Memory.wf_nil
  · exact seq_wf_of_exec (s := s.withPending rest) h he
  · exact h
  · exact h

/-! ## No fault under the invariant -/

/-- A legal DECVAL, and a DECODE that reads SEQ, read written entries alone (R32, R73, R92). -/
theorem State.Inv.exec_ne_fault {s : State} (h : s.Inv) (i : Instr) (f : Fault) : exec i s ≠ .fault f := by
  intro he
  rcases exec_fault_cases he with ⟨base, len, bits, k, -, hl, hk⟩ | ⟨k, -, hc, hk⟩
  · have hin : base.toNat + len.toNat ≤ min s.count 43 := by
      obtain ⟨-, hlt⟩ := Bool.or_eq_false_iff.1 hl
      exact Nat.not_lt.1 (of_decide_eq_false hlt)
    obtain ⟨ts, hts, -⟩ := h.slice hin
    simp [hts] at hk
  · obtain ⟨ts, hts, -⟩ := h.slice (base := 0) (len := frameLen) (by simp [hc])
    simp [hts] at hk

/-- A step faults only where its operation does. -/
theorem exec_fault_of_step {s : State} {f : Fault} (h : step s = .fault f) :
    ∃ i rest, exec i (s.withPending rest) = .fault f := by
  simp only [step] at h
  split at h
  · cases h
  · cases h
  · next a rest hp =>
    simp only [performAccess] at h
    split at h
    · next i hd => exact ⟨i, rest, h⟩
    · exact absurd h (rejectAccess_ne_fault _ _ f)

theorem State.Inv.stepSafe {s : State} (h : s.Inv) : s.stepSafe := by
  intro f hf
  obtain ⟨i, rest, he⟩ := exec_fault_of_step hf
  exact (h.withPending rest).exec_ne_fault i f he

/-! ## Completion on the accesses of the interface -/

/-- An operation that an access decodes to has operands that fit their registers: a data write of a wider value
is rejected. -/
theorem wellFormed_of_decode {p : Params} {a : Access} {i : Instr} (h : decode p a = .ok i) :
    i.wellFormed p = true := by
  rcases decode_eq_ok h with ⟨r, -, rfl⟩ | ⟨r, v, ha, hv, hw⟩
  · rfl
  · cases r with
    | cmd =>
      have he := encode_of_decode h
      cases i with
      | push _ | seta _ | setb _ => simp [encode, ha, Reg.index] at he
      | clear | classify _ | decbit | decval _ _ _ | chksum | decode | rd _ => rfl
    | sample | opa | opb => cases hw; exact decide_eq_true hv
    | status | count | result | errA | errB => cases hw

theorem withSlice_ne_refused (s : State) (base len : Nat) (k : List Nat → State) (r : Refusal) :
    withSlice s base len k ≠ .refused r := by
  unfold withSlice
  split <;> simp

theorem withTiming_ne_refused {s : State} {v : Nat} (hv : v < 2 ^ s.params.tw) (g : Reg) (k : State) (r : Refusal) :
    withTiming s g v k ≠ .refused r := by
  rw [withTiming_eq_next.2 ⟨hv, rfl⟩]
  simp

/-- The only operations that get no step are data writes of a value wider than the register (R10, V8). -/
theorem exec_ne_refused {i : Instr} {s : State} (hw : i.wellFormed s.params = true) (r : Refusal) :
    exec i s ≠ .refused r := by
  cases i with
  | clear | classify _ | decbit | chksum | rd _ => exact fun he => nomatch he
  | decval base len bits =>
    simp only [exec, execDecval]
    split
    · simp
    · exact withSlice_ne_refused _ _ _ _ _
  | decode =>
    simp only [exec, execDecode]
    split
    · simp
    · split
      · simp
      · exact withSlice_ne_refused _ _ _ _ _
  | push v | seta v | setb v =>
    exact withTiming_ne_refused (of_decide_eq_true hw) _ _ r

theorem State.Inv.exec_completes {s : State} (h : s.Inv) {i : Instr} (hw : i.wellFormed s.params = true) :
    ∃ t, exec i s = .next t := by
  cases he : exec i s with
  | next t => exact ⟨t, rfl⟩
  | fault f => exact absurd he (h.exec_ne_fault i f)
  | refused r => exact absurd he (exec_ne_refused hw r)

theorem regAt_of_le {k : Nat} (h : k ≤ 8) : ∃ r, regAt k = some r :=
  Option.isSome_iff_exists.1 ((by decide : ∀ k ≤ 8, (regAt k).isSome = true) k h)

/-- A write of a value that fits is no operation only for an illegal word or a read-only register. -/
theorem decodeWrite_eq_error {g : Reg} {v : Nat} {r : Reject} (h : decodeWrite g v = .error r) :
    (∃ w why, r = .illegalWord w why) ∨ ∃ g', r = .readOnly g' := by
  cases g with
  | cmd =>
    simp only [decodeWrite] at h
    split at h
    · cases h
    · cases h; exact .inl ⟨_, _, rfl⟩
  | sample | opa | opb => cases h
  | status | count | result | errA | errB => cases h; exact .inr ⟨_, rfl⟩

/-- An access of the interface that is no operation still has an effect: an illegal command's outcome, or
nothing (R10, R134). -/
theorem rejectAccess_completes {p : Params} {a : Access} {r : Reject} (ha : accessInside p a)
    (hd : decode p a = .error r) (s : State) : ∃ t, rejectAccess r s = .next t := by
  cases a with
  | read k =>
    obtain ⟨g, hg⟩ := regAt_of_le ha
    simp [decode, hg] at hd
  | write k v =>
    obtain ⟨g, hg, hv⟩ := ha
    rw [← regAt_index hg, decode_write_of_lt hv] at hd
    rcases decodeWrite_eq_error hd with ⟨w, why, rfl⟩ | ⟨g', rfl⟩
    · exact ⟨_, rfl⟩
    · exact ⟨_, rfl⟩

/-- Settles O44: no operation faults, and of the accesses only those outside the interface get no step. -/
theorem invariantStepsComplete : Obligations.InvariantStepsComplete := by
  intro s h
  refine ⟨h.stepSafe, fun hin => ?_⟩
  cases hp : s.pending with
  | nil => exact ⟨s, by simp [step, hp]⟩
  | cons e rest =>
    cases e with
    | reset => exact ⟨(s.withPending rest).resetBlock, by simp [step, hp]⟩
    | access a =>
      cases hd : decode s.params a with
      | ok i =>
        rw [step_of_decode_ok hp hd]
        exact (h.withPending rest).exec_completes (wellFormed_of_decode hd)
      | error r =>
        rw [step_of_decode_error hp hd]
        exact rejectAccess_completes (hin a rest hp) hd _

end Sys2Proof.Machine
end

section
/-! PROOF. The encoder and the decoder are inverse to each other, and the opcode map's masks select what the decoder
accepts (spec/30_encoding.md rules R41 to R46). -/

namespace Sys2Proof

/-! ## The encoder and the decoder of command words -/

theorem word_eq_of_write_eq {v w : Word} (h : Access.write 0 v.toNat = .write 0 w.toNat) : w = v :=
  (BitVec.eq_of_toNat_eq (Access.write.inj h).2).symm

/-- With `encode_of_decodeCommand`: a word decodes to an operation exactly when the encoder writes the word for it. -/
theorem decodeCommand_eq_ok_iff {w : Word} {i : Instr} : decodeCommand w = .ok i ↔ encode i = .write 0 w.toNat := by
  refine ⟨encode_of_decodeCommand, fun h => ?_⟩
  cases i with
  | clear => rw [word_eq_of_write_eq h]; rfl
  | classify m => rw [word_eq_of_write_eq h]; simp [decodeCommand, multiplierOperand]
  | decbit => rw [word_eq_of_write_eq h]; rfl
  | decval base len bits => rw [word_eq_of_write_eq h]; simp [decodeCommand, sliceOperands]
  | chksum => rw [word_eq_of_write_eq h]; rfl
  | decode => rw [word_eq_of_write_eq h]; rfl
  | push _ | seta _ | setb _ | rd _ => simp [encode] at h

/-- The six operations that command words ask for (R42). -/
theorem decodeCommand_ok_cases {w : Word} {i : Instr} (h : decodeCommand w = .ok i) :
    i = .clear ∨ (∃ m, i = .classify m) ∨ i = .decbit ∨ (∃ base len bits, i = .decval base len bits) ∨
      i = .chksum ∨ i = .decode := by
  have he := encode_of_decodeCommand h
  cases i with
  | clear | classify _ | decbit | decval _ _ _ | chksum | decode => simp
  | push _ | seta _ | setb _ | rd _ => simp [encode] at he

/-- Every command word fits CMD, so its write is judged by its bits alone. -/
theorem decode_write_word {p : Params} {w : Word} {i : Instr} (h : decodeCommand w = .ok i) :
    decode p (.write 0 w.toNat) = .ok i := by
  have hw : decode p (.write Reg.cmd.index w.toNat) = decodeWrite .cmd w.toNat := decode_write_of_lt w.isLt
  exact hw.trans (by simp [decodeWrite, h])

/-- Settles O2: a command's word decodes to the command, a data write's value fits its register, and a read names
a register of the map. -/
theorem decodeInvertsEncode : Obligations.DecodeInvertsEncode := by
  intro p i hi
  cases i with
  | clear | classify _ | decbit | decval _ _ _ | chksum | decode =>
    exact decode_write_word (decodeCommand_eq_ok_iff.2 rfl)
  | push t => exact decode_write_of_lt (r := .sample) (of_decide_eq_true hi)
  | seta v => exact decode_write_of_lt (r := .opa) (of_decide_eq_true hi)
  | setb v => exact decode_write_of_lt (r := .opb) (of_decide_eq_true hi)
  | rd r => simp [encode, Sys2Proof.decode]

/-- Settles O3, by the two halves of what an access says of the operation it decodes to. -/
theorem encodeInvertsDecode : Obligations.EncodeInvertsDecode :=
  fun _ _ _ h => ⟨encode_of_decode h, Machine.wellFormed_of_decode h⟩

/-- Settles O1: each word and each access is the encoding of its operation. -/
theorem specWordsDecode : Obligations.SpecWordsDecode :=
  have word {w : Word} {i : Instr} := (decodeCommand_eq_ok_iff (w := w) (i := i)).2
  have access := decodeInvertsEncode Params.default
  ⟨word rfl, word rfl, word rfl, word rfl, word rfl, word rfl,
    access (.push 8532) (by decide), access (.seta 402) (by decide), access (.setb 550) (by decide),
    access (.rd .result) rfl⟩

/-! ## Runs of bits in a word -/

theorem append_eq_append_iff {n m : Nat} {a c : BitVec n} {b d : BitVec m} : a ++ b = c ++ d ↔ a = c ∧ b = d := by
  refine ⟨fun h => ⟨?_, ?_⟩, fun ⟨ha, hb⟩ => by rw [ha, hb]⟩
  · simpa only [BitVec.extractLsb'_append_eq_left] using congrArg (BitVec.extractLsb' m n) h
  · simpa only [BitVec.extractLsb'_append_eq_right] using congrArg (BitVec.extractLsb' 0 m) h

/-- A run of bits is known when its two parts are. -/
theorem extractLsb'_eq_append_iff {k hi lo : Nat} (w : BitVec k) (start : Nat) (a : BitVec hi) (b : BitVec lo) :
    w.extractLsb' start (hi + lo) = a ++ b ↔
      w.extractLsb' (start + lo) hi = a ∧ w.extractLsb' start lo = b := by
  rw [← BitVec.extractLsb'_append_extractLsb'_eq_extractLsb' rfl, append_eq_append_iff]

/-- A mask of ones above zeros compares the bits above. -/
theorem and_highMask_eq_iff {hi lo : Nat} (w : BitVec (hi + lo)) (c : BitVec hi) :
    w &&& (BitVec.allOnes hi ++ 0#lo) = c ++ 0#lo ↔ w.extractLsb' lo hi = c := by
  have hw : w.extractLsb' lo hi ++ w.extractLsb' 0 lo = w := by
    rw [BitVec.extractLsb'_append_extractLsb'_eq_extractLsb' (by simp), BitVec.extractLsb'_eq_self]
  conv_lhs => rw [← hw, BitVec.and_append, append_eq_append_iff, BitVec.and_allOnes, BitVec.and_zero]
  simp

/-- The bits that format M requires to be 0 (R41). -/
theorem multiplierFields_iff (w : Word) :
    (zField w = 0 ∧ cField w = 0 ∧ bField w = 0) ↔ w.extractLsb' 8 20 = 0#20 := by
  have hb : w.extractLsb' 8 20 = 0#20 ↔ w.extractLsb' 16 12 = 0#12 ∧ bField w = 0 :=
    extractLsb'_eq_append_iff w 8 0#12 0#8
  have hc : w.extractLsb' 16 12 = 0#12 ↔ zField w = 0 ∧ cField w = 0 := extractLsb'_eq_append_iff w 16 0#4 0#8
  rw [hb, hc, and_assoc]

/-- The bits that format N requires to be 0 (R41). -/
theorem noOperandFields_iff (w : Word) :
    (zField w = 0 ∧ cField w = 0 ∧ bField w = 0 ∧ aField w = 0) ↔ w.extractLsb' 0 28 = 0#28 := by
  have ha : w.extractLsb' 0 28 = 0#28 ↔ w.extractLsb' 8 20 = 0#20 ∧ aField w = 0 :=
    extractLsb'_eq_append_iff w 0 0#20 0#8
  rw [ha, ← multiplierFields_iff, and_assoc, and_assoc]

/-! ## The rows of the opcode map (R42) -/

/-- A row whose mask is all ones selects its word alone, the one that encodes its command. -/
theorem fullMask_eq_iff_decodeCommand {w v : Word} {i : Instr} (h : encode i = .write 0 v.toNat) :
    w &&& 0xFFFFFFFF#32 = v ↔ decodeCommand w = .ok i := by
  have hmask : w &&& 0xFFFFFFFF#32 = w := BitVec.and_allOnes
  rw [hmask, decodeCommand_eq_ok_iff, h, Access.write.injEq, BitVec.toNat_inj]
  simp [eq_comm]

theorem classifyRow_selects_iff (w : Word) :
    w &&& 0xFFFFFF00#32 = 0x20000000#32 ↔ opField w = 2#4 ∧ zField w = 0 ∧ cField w = 0 ∧ bField w = 0 := by
  have hm : w &&& 0xFFFFFF00#32 = 0x20000000#32 ↔ w.extractLsb' 8 24 = 0x200000#24 :=
    and_highMask_eq_iff (hi := 24) (lo := 8) w 0x200000#24
  have ho : w.extractLsb' 8 24 = 0x200000#24 ↔ opField w = 2#4 ∧ w.extractLsb' 8 20 = 0#20 :=
    extractLsb'_eq_append_iff w 8 2#4 0#20
  rw [hm, ho, multiplierFields_iff]

theorem decvalRow_selects_iff (w : Word) :
    w &&& 0xFF000000#32 = 0x40000000#32 ↔ opField w = 4#4 ∧ zField w = 0 :=
  (and_highMask_eq_iff (hi := 8) (lo := 24) w 0x40#8).trans (extractLsb'_eq_append_iff w 24 4#4 0#4)

theorem decodeCommand_eq_classify_iff (w : Word) :
    (∃ m, decodeCommand w = .ok (.classify m)) ↔
      opField w = 2#4 ∧ zField w = 0 ∧ cField w = 0 ∧ bField w = 0 := by
  constructor
  · rintro ⟨m, h⟩
    have hw : w = classifyWord m := word_eq_of_write_eq (encode_of_decodeCommand h)
    simp [hw]
  · rintro ⟨ho, hf⟩
    exact ⟨aField w, by simp [decodeCommand, multiplierOperand, ho, hf]⟩

theorem decodeCommand_eq_decval_iff (w : Word) :
    (∃ base len bits, decodeCommand w = .ok (.decval base len bits)) ↔ opField w = 4#4 ∧ zField w = 0 := by
  constructor
  · rintro ⟨base, len, bits, h⟩
    have hw : w = decvalWord base len bits := word_eq_of_write_eq (encode_of_decodeCommand h)
    simp [hw]
  · rintro ⟨ho, hz⟩
    exact ⟨aField w, bField w, cField w, by simp [decodeCommand, sliceOperands, ho, hz]⟩

theorem opField_mask : ∀ row ∈ opcodeRows, opField row.mask = BitVec.allOnes 4 := by decide

/-- Every mask keeps the opcode, so a row selects words of its own opcode alone. -/
theorem opField_of_selects {w : Word} {row : OpcodeRow} (hrow : row ∈ opcodeRows) (h : row.selects w) :
    opField w = opField row.word := by
  have hmask := opField_mask row hrow
  unfold opField at hmask ⊢
  rw [← h, BitVec.extractLsb'_and, hmask, BitVec.and_allOnes]

theorem opcodeRow_eq_of_opField_eq :
    ∀ r₁ ∈ opcodeRows, ∀ r₂ ∈ opcodeRows, opField r₁.word = opField r₂.word → r₁ = r₂ := by decide

/-- Settles O4: row by row, and the rows' opcodes differ. -/
theorem opcodeRowsSelectCommands : Obligations.OpcodeRowsSelectCommands := by
  intro w
  have hclear : w &&& 0xFFFFFFFF#32 = 0x10000000#32 ↔ decodeCommand w = .ok .clear :=
    fullMask_eq_iff_decodeCommand rfl
  have hclassify := (classifyRow_selects_iff w).trans (decodeCommand_eq_classify_iff w).symm
  have hdecbit : w &&& 0xFFFFFFFF#32 = 0x30000000#32 ↔ decodeCommand w = .ok .decbit :=
    fullMask_eq_iff_decodeCommand rfl
  have hdecval := (decvalRow_selects_iff w).trans (decodeCommand_eq_decval_iff w).symm
  have hchksum : w &&& 0xFFFFFFFF#32 = 0x50000000#32 ↔ decodeCommand w = .ok .chksum :=
    fullMask_eq_iff_decodeCommand rfl
  have hdecode : w &&& 0xFFFFFFFF#32 = 0x60000000#32 ↔ decodeCommand w = .ok .decode :=
    fullMask_eq_iff_decodeCommand rfl
  refine ⟨hclear, hclassify, hdecbit, hdecval, hchksum, hdecode, ?_, fun r₁ h₁ r₂ h₂ hs₁ hs₂ => ?_⟩
  · simp only [opcodeRows, List.forall_mem_cons, OpcodeRow.selects, hclear, hclassify, hdecbit, hdecval, hchksum,
      hdecode]
    cases hd : decodeCommand w with
    | error why => simp
    | ok i =>
      rcases decodeCommand_ok_cases hd with rfl | ⟨m, rfl⟩ | rfl | ⟨base, len, bits, rfl⟩ | rfl | rfl <;> simp
  · exact opcodeRow_eq_of_opField_eq r₁ h₁ r₂ h₂
      ((opField_of_selects h₁ hs₁).symm.trans (opField_of_selects h₂ hs₂))

/-! ## Illegal words (R44 items 1 and 2) -/

/-- The opcodes: six commands, and the reserved ones. -/
theorem opcode_cases : ∀ o : BitVec 4,
    o = 1#4 ∨ o = 2#4 ∨ o = 3#4 ∨ o = 4#4 ∨ o = 5#4 ∨ o = 6#4 ∨ (o = 0#4 ∨ 7 ≤ o.toNat) := by decide

theorem ne_command_of_reserved : ∀ o : BitVec 4, o = 0#4 ∨ 7 ≤ o.toNat →
    o ≠ 1#4 ∧ o ≠ 2#4 ∧ o ≠ 3#4 ∧ o ≠ 4#4 ∧ o ≠ 5#4 ∧ o ≠ 6#4 := by decide

theorem decodeCommand_of_reserved {w : Word} (h : opField w = 0#4 ∨ 7 ≤ (opField w).toNat) :
    decodeCommand w = .error .reservedOpcode := by
  simp [decodeCommand, ne_command_of_reserved _ h]

/-- The test of a format: it fails for item 2 of R44 alone. -/
theorem formatTest_eq_error_iff {P : Prop} [Decidable P] {i : Instr} {why : IllegalReason} :
    (if P then Except.ok i else .error .nonzeroField) = .error why ↔ why = .nonzeroField ∧ ¬P := by
  split
  · next hp => simp [hp]
  · next hp => simp [hp, eq_comm]

theorem noOperand_eq_error_iff {w : Word} {i : Instr} {why : IllegalReason} :
    noOperand w i = .error why ↔ why = .nonzeroField ∧ w.extractLsb' 0 28 ≠ 0#28 := by
  rw [ne_eq, ← noOperandFields_iff]
  exact formatTest_eq_error_iff

theorem multiplierOperand_eq_error_iff {w : Word} {why : IllegalReason} :
    multiplierOperand w = .error why ↔ why = .nonzeroField ∧ w.extractLsb' 8 20 ≠ 0#20 := by
  rw [ne_eq, ← multiplierFields_iff]
  exact formatTest_eq_error_iff

theorem sliceOperands_eq_error_iff {w : Word} {why : IllegalReason} :
    sliceOperands w = .error why ↔ why = .nonzeroField ∧ zField w ≠ 0#4 :=
  formatTest_eq_error_iff

/-- Settles O5, by the opcode: a format's test answers item 2 alone, and no reserved opcode reaches a format. -/
theorem illegalWordReason : Obligations.IllegalWordReason := by
  intro w
  change (_ ↔ opField w = 0#4 ∨ 7 ≤ (opField w).toNat) ∧
    (_ ↔ ((opField w = 1#4 ∨ opField w = 3#4 ∨ opField w = 5#4 ∨ opField w = 6#4) ∧ _) ∨
      (opField w = 2#4 ∧ _) ∨ (opField w = 4#4 ∧ zField w ≠ 0#4))
  rcases opcode_cases (opField w) with ho | ho | ho | ho | ho | ho | ho
  · simp [decodeCommand, ho, noOperand_eq_error_iff]
  · simp [decodeCommand, ho, multiplierOperand_eq_error_iff]
  · simp [decodeCommand, ho, noOperand_eq_error_iff]
  · simp [decodeCommand, ho, sliceOperands_eq_error_iff]
  · simp [decodeCommand, ho, noOperand_eq_error_iff]
  · simp [decodeCommand, ho, noOperand_eq_error_iff]
  · rw [decodeCommand_of_reserved ho]
    simp [ho, ne_command_of_reserved _ ho]

end Sys2Proof
end

section
/-! PROOF. A legal command never ends in ILLEGAL_COMMAND: the block's functions have no such error, and the tests of
R44 that a command makes of its operands and the state are the statement's own (spec/30_encoding.md rule R44). -/

namespace Sys2Proof.Machine

/-! ## The errors of the block's functions -/

theorem decodeBit_error_code_ne {on off : Nat} {e : BlockError} (h : decodeBit on off = .error e) : e.code ≠ 15 := by
  unfold decodeBit at h
  split at h
  · cases h; simp [BlockError.code]
  split at h
  · cases h
  split at h
  · cases h
  · cases h; simp [BlockError.code]

theorem decodePairs_error_code_ne {n : Nat} {ts : List Nat} {i acc : Nat} {e : BlockError}
    (h : decodePairs n ts i acc = .error e) : e.code ≠ 15 := by
  fun_induction decodePairs n ts i acc with
  | case1 on off ts i acc e' hb => cases h; exact decodeBit_error_code_ne hb
  | case2 on off ts i acc hb ih => exact ih h
  | case3 on off ts i acc hb ih => exact ih h
  | case4 => cases h

theorem decodeValue_error_code_ne {ts : List Nat} {n : Nat} {e : BlockError} (h : decodeValue ts n = .error e) :
    e.code ≠ 15 := by
  unfold decodeValue at h
  split at h
  · cases h; simp [BlockError.code]
  · exact decodePairs_error_code_ne h

theorem countGate_error_code_ne {n : Nat} {e : BlockError} (h : countGate n = .error e) : e.code ≠ 15 := by
  unfold countGate at h
  split at h
  · cases h; simp [BlockError.code]
  split at h
  · cases h; simp [BlockError.code]
  · cases h

theorem checksumGate_error_code_ne {c d : Nat} {e : BlockError} (h : checksumGate c d = .error e) : e.code ≠ 15 := by
  unfold checksumGate at h
  split at h
  · cases h; simp [BlockError.code]
  · cases h

theorem contentGates_error_code_ne {ts : List Nat} {e : BlockError} (h : contentGates ts = .error e) :
    e.code ≠ 15 := by
  unfold contentGates at h
  split at h
  · cases h; simp [BlockError.code]
  split at h
  · cases h; simp [BlockError.code]
  split at h
  · next hc => cases h; exact decodeValue_error_code_ne hc
  split at h
  · next hd => cases h; exact decodeValue_error_code_ne hd
  · exact checksumGate_error_code_ne h

theorem decodeFrame_error_code_ne {ts : List Nat} {e : BlockError} (h : decodeFrame ts = .error e) :
    e.code ≠ 15 := by
  unfold decodeFrame at h
  split at h
  · next hg => cases h; exact countGate_error_code_ne hg
  · exact contentGates_error_code_ne h

/-! ## Which commands end in ILLEGAL_COMMAND -/

theorem succeed_err_ne (s : State) (w : Word) (v : BitVec 16) : (s.succeed w v).status.err ≠ 15 := by
  simp [State.succeed]

/-- A command's code is its result's. -/
theorem conclude_err_ne {r : Except BlockError Nat} (h : ∀ e, r = .error e → e.code ≠ 15) (s : State) (w : Word) :
    (s.conclude w r).status.err ≠ 15 := by
  cases r with
  | ok v => exact succeed_err_ne s w _
  | error e => exact h e rfl

theorem decval_err_ne {base len bits : BitVec 8} {s t : State} (hl : illegalSlice s base len bits = false)
    (h : exec (.decval base len bits) s = .next t) : t.status.err ≠ 15 := by
  simp only [exec, execDecval, hl] at h
  obtain ⟨ts, -, rfl⟩ := withSlice_eq_next.1 h
  exact conclude_err_ne (fun e he => decodeValue_error_code_ne he) s _

theorem decode_err_ne {s t : State} (hs : s.status.sat = false) (h : exec .decode s = .next t) :
    t.status.err ≠ 15 := by
  simp only [exec, execDecode, hs] at h
  split at h
  · contradiction
  split at h
  · next e hg => cases h; exact countGate_error_code_ne hg
  · obtain ⟨ts, -, rfl⟩ := withSlice_eq_next.1 h
    exact conclude_err_ne (fun e he => decodeFrame_error_code_ne he) s _

theorem decbit_err_ne {s t : State} (h : exec .decbit s = .next t) : t.status.err ≠ 15 := by
  cases h
  refine conclude_err_ne (fun e he => ?_) s _
  cases hb : decodeBit s.opa s.opb with
  | ok b => simp [hb, Except.map] at he
  | error e' => simp only [hb, Except.map] at he; cases he; exact decodeBit_error_code_ne hb

/-! ## Legal command words -/

/-- A word that is illegal by its bits alone is illegal in every state. -/
theorem commandIllegal_of_decodeCommand {w : Word} {why : IllegalReason} (s : State)
    (h : decodeCommand w = .error why) : commandIllegal s w := by
  have h28 : w.extractLsb' 0 28 = 0#28 ↔ w.extractLsb' 24 4 = 0#4 ∧ w.extractLsb' 0 24 = 0#24 :=
    extractLsb'_eq_append_iff w 0 0#4 0#24
  have h20 : w.extractLsb' 8 20 = 0#20 ↔ w.extractLsb' 24 4 = 0#4 ∧ w.extractLsb' 8 16 = 0#16 :=
    extractLsb'_eq_append_iff w 8 0#4 0#16
  obtain ⟨hop, hfield⟩ := illegalWordReason w
  cases why with
  | reservedOpcode => exact (hop.1 h).elim .inl fun hr => .inr (.inl hr)
  | nonzeroField =>
    right; right
    by_cases hz : w.extractLsb' 24 4 = 0#4
    · right
      rcases hfield.1 h with ⟨ho, hf⟩ | ⟨ho, hf⟩ | ⟨-, hf⟩
      · exact .inl ⟨ho, fun h24 => hf (h28.2 ⟨hz, h24⟩)⟩
      · exact .inr (.inl ⟨ho, fun h16 => hf (h20.2 ⟨hz, h16⟩)⟩)
      · exact absurd hz hf
    · exact .inl hz

/-- DECVAL's operands are legal where its word is (R44 items 3 and 4). -/
theorem illegalSlice_of_legal {s : State} {base len bits : BitVec 8}
    (h : ¬ commandIllegal s (decvalWord base len bits)) : illegalSlice s base len bits = false := by
  refine Bool.eq_false_iff.2 fun hl => h ?_
  have ho := opField_decvalWord base len bits
  have hz := zField_decvalWord base len bits
  have ha := aField_decvalWord base len bits
  have hb := bField_decvalWord base len bits
  have hc := cField_decvalWord base len bits
  unfold opField at ho
  unfold zField at hz
  unfold aField at ha
  unfold bField at hb
  unfold cField at hc
  unfold commandIllegal
  rw [ho, hz, ha, hb, hc]
  simpa [illegalSlice, writtenLen] using hl

theorem not_sat_of_legal_decode {s : State} (h : ¬ commandIllegal s decodeWord) : s.status.sat = false := by
  refine Bool.eq_false_iff.2 fun hs => h ?_
  have ho : decodeWord.extractLsb' 28 4 = 6#4 := rfl
  simp [commandIllegal, hs, ho]

theorem exec_err_ne_of_legal {s t : State} {w : Word} {i : Instr} (hd : decodeCommand w = .ok i)
    (hl : ¬ commandIllegal s w) (h : exec i s = .next t) : t.status.err ≠ 15 := by
  have he := encode_of_decodeCommand hd
  rcases decodeCommand_ok_cases hd with rfl | ⟨m, rfl⟩ | rfl | ⟨base, len, bits, rfl⟩ | rfl | rfl
  · cases h; exact succeed_err_ne _ _ _
  · cases h; exact succeed_err_ne _ _ _
  · exact decbit_err_ne h
  · rw [word_eq_of_write_eq he] at hl
    exact decval_err_ne (illegalSlice_of_legal hl) h
  · cases h; exact succeed_err_ne _ _ _
  · rw [word_eq_of_write_eq he] at hl
    exact decode_err_ne (not_sat_of_legal_decode hl) h

/-- Settles O14: the word decodes to a command, and that command's own tests find nothing illegal. -/
theorem legalCommandNotIllegal : Obligations.LegalCommandNotIllegal := by
  intro s t rest w hp hl hst
  rw [step_commandWord hp] at hst
  split at hst
  · next i hd => exact exec_err_ne_of_legal (s := s.withPending rest) hd hl hst
  · next why hd => exact absurd (commandIllegal_of_decodeCommand s hd) hl

end Sys2Proof.Machine
end

section
/-! PROOF. The timing classifier's window in its closed form, and the outcome of CLASSIFY
(spec/40_timing_classifier.md rules R50 to R53). -/

namespace Sys2Proof

/-- Fields side by side are the sum of the upper ones with zeros below and the lowest one (R46). -/
theorem append_eq_append_zero_add {v w : Nat} (x : BitVec v) (y : BitVec w) :
    x ++ y = (x ++ 0#w) + y.setWidth (v + w) := by
  have hy : y.toNat % 2 ^ (v + w) = y.toNat :=
    Nat.mod_eq_of_lt (y.isLt.trans_le (Nat.pow_le_pow_right (by decide) (Nat.le_add_left w v)))
  have hsum : (x ++ y).toNat = x.toNat <<< w + y.toNat := by
    rw [BitVec.toNat_append, Nat.shiftLeft_add_eq_or_of_lt y.isLt]
  apply BitVec.eq_of_toNat_eq
  rw [← Nat.mod_eq_of_lt (x ++ y).isLt, hsum]
  simp [BitVec.toNat_add, BitVec.toNat_append, hy]

/-- The word of CLASSIFY as R50 writes it. -/
theorem classifyWord_eq_add (m : BitVec 8) : classifyWord m = 0x20000000#32 + m.setWidth 32 :=
  append_eq_append_zero_add 0x200000#24 m

end Sys2Proof

namespace Sys2Proof.Machine

/-- 25 percent of the etalon 480 m is 120 m, with no remainder (R53 a). -/
theorem tolerance_eq (m : Nat) : baseUnit * m * tolerancePercent / 100 = 120 * m := by
  simp only [baseUnit, tolerancePercent]
  omega

/-- The closed form of the window test (R52). -/
theorem isTimingValid_iff (t m : Nat) :
    isTimingValid t m = true ↔ 1 ≤ m ∧ 360 * m ≤ t ∧ t ≤ 600 * m := by
  unfold isTimingValid
  split
  · next hm => simp [hm]
  · next hm =>
    simp only [tolerance_eq, baseUnit, Bool.and_eq_true, decide_eq_true_eq]
    omega

/-- The closed window is the distance of at most a quarter of the etalon from the etalon (R52). -/
theorem mem_window_iff_four_mul_abs_le (t m : Nat) :
    (360 * m ≤ t ∧ t ≤ 600 * m) ↔ 4 * |(t : Int) - 480 * m| ≤ 480 * m := by
  have habs : |(t : Int) - 480 * m| ≤ 120 * m ↔ -(120 * m : Int) ≤ t - 480 * m ∧ (t : Int) - 480 * m ≤ 120 * m :=
    abs_le
  omega

/-- Settles O15: each clause is the closed form of the window, read at its inputs. -/
theorem classifierWindow : Obligations.ClassifierWindow := by
  refine ⟨isTimingValid_iff, fun t m hm => ?_, fun m hm => ?_, fun t => ?_⟩
  · rw [← mem_window_iff_four_mul_abs_le, isTimingValid_iff, and_iff_right hm]
  · simp only [← Bool.not_eq_true, isTimingValid_iff]
    omega
  · simp [← Bool.not_eq_true, isTimingValid_iff]

/-- Settles O16: CLASSIFY succeeds in every state, and its result is the window test's bit. -/
theorem classifyCompletes : Obligations.ClassifyCompletes := by
  intro m s
  have hresult : BitVec.ofNat 16 (isTimingValid s.opa m.toNat).toNat =
      if 1 ≤ m.toNat ∧ 360 * m.toNat ≤ s.opa ∧ s.opa ≤ 600 * m.toNat then 1 else 0 := by
    simp only [← isTimingValid_iff]
    cases isTimingValid s.opa m.toNat <;> rfl
  calc exec (.classify m) s
      = .next (s.succeed (classifyWord m) (BitVec.ofNat 16 (isTimingValid s.opa m.toNat).toNat)) := rfl
    _ = _ := by
      rw [succeed_eq_commandOutcome s (op := 2) (opField_classifyWord m), hresult, classifyWord_eq_add]

end Sys2Proof.Machine
end

section
/-! PROOF. The pulse pair's table in the literal windows of its durations, and the outcome of DECBIT
(spec/41_pulse_pair_to_bit.md rules R60 to R63). -/

namespace Sys2Proof.Machine

/-! ## The windows of a pair's durations (R62) -/

/-- A mark and the space of a 0 have the same window. -/
theorem isTimingValid_one_iff (t : Nat) : isTimingValid t 1 = true ↔ 360 ≤ t ∧ t ≤ 600 := by
  simp [isTimingValid_iff]

theorem isTimingValid_three_iff (t : Nat) : isTimingValid t 3 = true ↔ 1080 ≤ t ∧ t ≤ 1800 := by
  simp [isTimingValid_iff]

/-- The pseudocode of decode_bit with its windows in numbers. -/
theorem decodeBit_eq (on off : Nat) :
    decodeBit on off =
      if ¬(360 ≤ on ∧ on ≤ 600) then .error (.abnormalLedOnBitValue on)
      else if 360 ≤ off ∧ off ≤ 600 then .ok false
      else if 1080 ≤ off ∧ off ≤ 1800 then .ok true
      else .error (.abnormalLedOffBitValue off) := by
  simp only [decodeBit, Bool.not_eq_true', ← Bool.not_eq_true, isTimingValid_one_iff, isTimingValid_three_iff]

/-- Settles O17: each row decides the tests of the pseudocode up to its own; the windows of the space are
disjoint. -/
theorem decodeBitTable : Obligations.DecodeBitTable := by
  intro on off
  rw [decodeBit_eq]
  refine ⟨fun hon h0 => ?_, fun hon h1 => ?_, fun hon h0 h1 => ?_, fun hon => ?_⟩
  · rw [if_neg (not_not.2 hon), if_pos h0]
  · have h0 : ¬(360 ≤ off ∧ off ≤ 600) := by omega
    rw [if_neg (not_not.2 hon), if_neg h0, if_pos h1]
  · rw [if_neg (not_not.2 hon), if_neg h0, if_neg h1]
  · rw [if_pos hon]

/-! ## DECBIT (R60) -/

theorem exec_decbit_of_ok {s : State} {b : Bool} (h : decodeBit s.opa s.opb = .ok b) :
    exec .decbit s = .next (s.commandOutcome 0x30000000#32 3 0 (BitVec.ofNat 16 b.toNat) 0 0) :=
  calc exec .decbit s
      = .next (s.conclude decbitWord ((decodeBit s.opa s.opb).map Bool.toNat)) := rfl
    _ = .next (s.succeed decbitWord (BitVec.ofNat 16 b.toNat)) := by rw [h]; rfl
    _ = _ := by rw [succeed_eq_commandOutcome s (op := 3) rfl, decbitWord]

/-- The payload is an operand, which fits ERR_A because it fits its own register. -/
theorem exec_decbit_of_error {s : State} {e : BlockError} (h : decodeBit s.opa s.opb = .error e)
    (ha : s.opa < 2 ^ s.params.tw) (hb : s.opb < 2 ^ s.params.tw) :
    exec .decbit s = .next (s.commandOutcome 0x30000000#32 3 e.code 0 e.payload.1 e.payload.2) := by
  obtain ⟨h1, h2⟩ := decodeBit_error_fits h ha hb
  calc exec .decbit s
      = .next (s.conclude decbitWord ((decodeBit s.opa s.opb).map Bool.toNat)) := rfl
    _ = .next (s.raise decbitWord e) := by rw [h]; rfl
    _ = _ := by rw [raise_eq_commandOutcome s (op := 3) rfl h1 h2, decbitWord]

/-- Settles O18, by the rows of R62: a bit is the result, a bad duration the error. -/
theorem decbitCompletes : Obligations.DecbitCompletes := by
  intro s ha hb
  obtain ⟨hzero, hone, hoff, hon⟩ := decodeBitTable s.opa s.opb
  split_ifs with hmark h0 h1
  · exact exec_decbit_of_ok (hzero hmark h0)
  · exact exec_decbit_of_ok (hone hmark h1)
  · exact exec_decbit_of_error (hoff hmark h0 h1) ha hb
  · exact exec_decbit_of_error (hon hmark) ha hb

end Sys2Proof.Machine
end

section
/-! PROOF. The value reconstructor in terms of its pulse pairs and the bits of its value, and the outcome of DECVAL
(spec/42_value_reconstructor.md rules R70 to R75). -/

namespace Sys2Proof.Machine

/-! ## The pulse pairs of a list (R71) -/

/-- What decode_bit makes of pulse pair `i` of a list. -/
def pairBit (ts : List Nat) (i : Nat) : Except BlockError Bool :=
  decodeBit (ts.getD (2 * i) 0) (ts.getD (2 * i + 1) 0)

@[simp] theorem pairBit_cons_zero (on off : Nat) (ts : List Nat) :
    pairBit (on :: off :: ts) 0 = decodeBit on off := rfl

@[simp] theorem pairBit_cons_succ (on off : Nat) (ts : List Nat) (i : Nat) :
    pairBit (on :: off :: ts) (i + 1) = pairBit ts i := rfl

theorem exists_cons_cons_of_length {ts : List Nat} {m : Nat} (h : ts.length = 2 * (m + 1)) :
    ∃ on off us, ts = on :: off :: us ∧ us.length = 2 * m := by
  obtain _ | ⟨on, _ | ⟨off, us⟩⟩ := ts
  · cases h
  · exact absurd h (by rw [List.length_singleton]; omega)
  · exact ⟨on, off, us, rfl, by simpa [Nat.mul_succ] using h⟩

/-! ## The loop over the pairs (R71 step 3) -/

/-- One round of the loop, whatever the bit. -/
theorem decodePairs_cons_of_ok {on off : Nat} {b : Bool} (h : decodeBit on off = .ok b) (n : Nat) (ts : List Nat)
    (i acc : Nat) :
    decodePairs n (on :: off :: ts) i acc =
      decodePairs n ts (i + 1) (acc ||| b.toNat <<< (n - 1 - i)) := by
  cases b <;> simp [decodePairs, h]

theorem decodePairs_cons_of_error {on off : Nat} {e : BlockError} (h : decodeBit on off = .error e) (n : Nat)
    (ts : List Nat) (i acc : Nat) : decodePairs n (on :: off :: ts) i acc = .error e := by
  simp [decodePairs, h]

theorem testBit_or_bit (acc : Nat) (b : Bool) (m j : Nat) :
    (acc ||| b.toNat <<< m).testBit j = (acc.testBit j || decide (j = m) && b) := by
  cases b <;> simp [Nat.one_shiftLeft, Nat.testBit_two_pow, eq_comm]

/-- Or-ing a bit into a free place sets the bits from there on to that bit and the old ones. -/
theorem forall_testBit_or_bit_iff {acc m : Nat} (h : acc.testBit m = false) (b : Bool) (v : Nat) :
    (∀ j, m ≤ j → v.testBit j = (acc ||| b.toNat <<< m).testBit j) ↔
      (∀ j, m + 1 ≤ j → v.testBit j = acc.testBit j) ∧ b = v.testBit m := by
  simp only [testBit_or_bit]
  refine ⟨fun hv => ⟨fun j hj => ?_, ?_⟩, ?_⟩
  · simpa [(Nat.lt_of_succ_le hj).ne'] using hv j (by omega)
  · simpa [h, eq_comm] using hv m le_rfl
  · rintro ⟨hv, rfl⟩ j hj
    rcases hj.eq_or_lt with rfl | hlt
    · simp [h]
    · simp [hlt.ne', hv j hlt]

/-- With `m` pairs to come and the low `m` bits of the accumulator still 0, the loop keeps the bits above them
and fills in a bit for each pair. -/
theorem decodePairs_eq_ok_iff {n m v : Nat} {ts : List Nat} {i acc : Nat} (hl : ts.length = 2 * m) (hn : i + m = n)
    (hacc : ∀ j, j < m → acc.testBit j = false) :
    decodePairs n ts i acc = .ok v ↔
      (∀ j, m ≤ j → v.testBit j = acc.testBit j) ∧ ∀ k, k < m → pairBit ts k = .ok (v.testBit (m - 1 - k)) := by
  induction m generalizing ts i acc with
  | zero =>
    obtain rfl : ts = [] := List.length_eq_zero_iff.1 hl
    simp only [decodePairs, Except.ok.injEq]
    refine ⟨fun h => by simp [h], fun h => Nat.eq_of_testBit_eq fun j => (h.1 j (Nat.zero_le j)).symm⟩
  | succ m ih =>
    obtain ⟨on, off, us, rfl, hus⟩ := exists_cons_cons_of_length hl
    rw [Nat.forall_lt_succ_left]
    simp only [pairBit_cons_zero, pairBit_cons_succ]
    cases hb : decodeBit on off with
    | error e => simp [decodePairs_cons_of_error hb]
    | ok b =>
      have hplace : n - 1 - i = m := by omega
      rw [decodePairs_cons_of_ok hb, hplace, ih hus (by omega) fun j hj => by
          rw [testBit_or_bit, hacc j (by omega), decide_eq_false hj.ne]; rfl,
        forall_testBit_or_bit_iff (hacc m (by omega)), and_assoc, Except.ok.injEq]
      simp only [Nat.add_sub_cancel, Nat.sub_zero, Nat.sub_add_eq, Nat.sub_right_comm m 1]

/-- The loop fails with the first bad pair, whatever it has collected so far. -/
theorem decodePairs_eq_error_iff {n m : Nat} {ts : List Nat} {i acc : Nat} {e : BlockError}
    (hl : ts.length = 2 * m) :
    decodePairs n ts i acc = .error e ↔
      ∃ k, k < m ∧ (∀ j, j < k → ∃ b, pairBit ts j = .ok b) ∧ pairBit ts k = .error e := by
  induction m generalizing ts i acc with
  | zero =>
    obtain rfl : ts = [] := List.length_eq_zero_iff.1 hl
    simp [decodePairs]
  | succ m ih =>
    obtain ⟨on, off, us, rfl, hus⟩ := exists_cons_cons_of_length hl
    rw [Nat.exists_lt_succ_left]
    simp only [Nat.forall_lt_succ_left, pairBit_cons_zero, pairBit_cons_succ]
    cases hb : decodeBit on off with
    | error e' => simp [decodePairs_cons_of_error hb]
    | ok b => simp [decodePairs_cons_of_ok hb, ih hus]

/-! ## decode_value (R71) -/

theorem decodeValue_of_length_ne {ts : List Nat} {n : Nat} (h : ts.length ≠ 2 * n) :
    decodeValue ts n = .error (.wrongTimingsNumber (2 * n) ts.length) := if_pos h

theorem decodeValue_of_length {ts : List Nat} {n : Nat} (h : ts.length = 2 * n) :
    decodeValue ts n = decodePairs n ts 0 0 := if_neg (not_not.2 h)

/-- What succeeds is the n-bit value whose own bits, the most significant first, are those of the pairs. -/
theorem decodeValue_eq_ok_iff {ts : List Nat} {n v : Nat} :
    decodeValue ts n = .ok v ↔
      ts.length = 2 * n ∧ v < 2 ^ n ∧ ∀ i, i < n → pairBit ts i = .ok (v.testBit (n - 1 - i)) := by
  by_cases hl : ts.length = 2 * n
  · have hfits : (∀ j, n ≤ j → v.testBit j = (0 : Nat).testBit j) ↔ v < 2 ^ n := by
      simp only [Nat.zero_testBit]
      exact ⟨Nat.lt_pow_two_of_testBit v, fun hv j hj =>
        Nat.testBit_lt_two_pow (hv.trans_le (Nat.pow_le_pow_right (by decide) hj))⟩
    rw [decodeValue_of_length hl, decodePairs_eq_ok_iff hl (Nat.zero_add n) (by simp), hfits,
      and_iff_right hl]
  · simp [decodeValue_of_length_ne hl, hl]

/-- Bits at their places, the most significant first, sum up to the number that has those bits. -/
theorem ofBits_eq_bitSum (bit : Nat → Bool) (n : Nat) :
    Nat.ofBits (fun j : Fin n => bit (n - 1 - j)) =
      ∑ i ∈ Finset.range n, if bit i then 2 ^ (n - 1 - i) else 0 := by
  induction n with
  | zero => rfl
  | succ n ih =>
    have htail : (fun j : Fin (n + 1) => bit (n + 1 - 1 - j)) ∘ Fin.succ = fun j : Fin n => bit (n - 1 - j) := by
      funext j
      simp [Nat.sub_sub, Nat.add_comm]
    have hdouble : ∀ i ∈ Finset.range n, (if bit i then 2 ^ (n + 1 - 1 - i) else 0) =
        2 * if bit i then 2 ^ (n - 1 - i) else 0 := by
      intro i hi
      have hexp : n + 1 - 1 - i = n - 1 - i + 1 := by have := Finset.mem_range.1 hi; omega
      rw [hexp, pow_succ']
      split <;> rfl
    rw [Nat.ofBits_succ, htail, ih, Finset.sum_range_succ, Finset.sum_congr rfl hdouble, ← Finset.mul_sum]
    cases hb : bit n <;> simp [hb]

/-- A number is the sum of given bits exactly when they are its own. -/
theorem eq_bitSum_iff {n v : Nat} (hv : v < 2 ^ n) (bit : Nat → Bool) :
    (v = ∑ i ∈ Finset.range n, if bit i then 2 ^ (n - 1 - i) else 0) ↔
      ∀ i, i < n → bit i = v.testBit (n - 1 - i) := by
  rw [← ofBits_eq_bitSum]
  constructor
  · rintro rfl i hi
    rw [Nat.testBit_ofBits_lt _ _ (by omega), Nat.sub_sub_self (by omega)]
  · intro h
    have hbits : (fun j : Fin n => bit (n - 1 - j)) = fun j : Fin n => v.testBit j := by
      funext j
      rw [h _ (by omega), Nat.sub_sub_self (by omega)]
    rw [hbits, Nat.ofBits_testBit, Nat.mod_eq_of_lt hv]

/-- Settles O19: the value's own bits are the bits of the pairs. -/
theorem decodeValueIsBitSum : Obligations.DecodeValueIsBitSum := by
  intro ts n v
  rw [decodeValue_eq_ok_iff]
  refine and_congr_right fun _ => and_congr_right fun hv => ⟨fun h => ?_, ?_⟩
  · exact ⟨_, h, (eq_bitSum_iff hv _).2 fun _ _ => rfl⟩
  · rintro ⟨bit, hbit, hsum⟩ i hi
    rw [← (eq_bitSum_iff hv bit).1 hsum i hi]
    exact hbit i hi

/-- Settles O20, by the length: a wrong one is the error, and with the right one the loop decides. -/
theorem decodeValueFirstError : Obligations.DecodeValueFirstError := by
  intro ts n e
  by_cases hl : ts.length = 2 * n
  · rw [decodeValue_of_length hl, decodePairs_eq_error_iff hl]
    simp only [hl, pairBit, ne_eq, not_true_eq_false, false_and, false_or, true_and]
  · simp [decodeValue_of_length_ne hl, hl, eq_comm]

/-! ## The etalon encoding -/

/-- A bit is a good mark and the bit's own space (R62). -/
theorem decodeBit_eq_ok_iff {on off : Nat} {b : Bool} :
    decodeBit on off = .ok b ↔
      (360 ≤ on ∧ on ≤ 600) ∧ if b then 1080 ≤ off ∧ off ≤ 1800 else 360 ≤ off ∧ off ≤ 600 := by
  obtain ⟨hzero, hone, hoff, hon⟩ := decodeBitTable on off
  by_cases hmark : 360 ≤ on ∧ on ≤ 600
  · by_cases h0 : 360 ≤ off ∧ off ≤ 600
    · have h1 : ¬(1080 ≤ off ∧ off ≤ 1800) := by omega
      cases b <;> simp [hzero hmark h0, hmark, h0, h1]
    · by_cases h1 : 1080 ≤ off ∧ off ≤ 1800
      · cases b <;> simp [hone hmark h1, hmark, h0, h1]
      · cases b <;> simp [hoff hmark h0 h1, h0, h1]
  · simp [hon hmark, hmark]

/-- The windows of R62 are the tolerance of 25 percent around the etalons of R47. -/
theorem decodeBit_eq_ok_iff_tolerance {on off : Nat} {b : Bool} :
    decodeBit on off = .ok b ↔
      (3 * 480 ≤ 4 * on ∧ 4 * on ≤ 5 * 480) ∧
      3 * (if b then 1440 else 480) ≤ 4 * off ∧ 4 * off ≤ 5 * (if b then 1440 else 480) := by
  rw [decodeBit_eq_ok_iff]
  split <;> omega

theorem length_etalonPairs (f : Nat → Bool) (n : Nat) :
    ((List.range n).flatMap fun j => etalonPair (f j)).length = 2 * n := by
  simp [etalonPair, mul_comm]

theorem getD_etalonPairs (f : Nat → Bool) {i n : Nat} (hi : i < n) :
    ((List.range n).flatMap fun j => etalonPair (f j)).getD (2 * i) 0 = 480 ∧
    ((List.range n).flatMap fun j => etalonPair (f j)).getD (2 * i + 1) 0 = if f i then 1440 else 480 := by
  induction n with
  | zero => exact absurd hi (Nat.not_lt_zero i)
  | succ n ih =>
    have hlen := length_etalonPairs f n
    rw [List.range_succ, List.flatMap_append, List.flatMap_singleton]
    rcases Nat.lt_succ_iff_lt_or_eq.1 hi with hlt | rfl
    · rw [List.getD_append _ _ _ _ (by omega), List.getD_append _ _ _ _ (by omega)]
      exact ih hlt
    · rw [List.getD_append_right _ _ _ _ (by omega), List.getD_append_right _ _ _ _ (by omega), hlen,
        Nat.sub_self, Nat.add_sub_cancel_left]
      exact ⟨rfl, rfl⟩

theorem forall_lt_two_mul_iff {p : Nat → Prop} {n : Nat} :
    (∀ k, k < 2 * n → p k) ↔ ∀ i, i < n → p (2 * i) ∧ p (2 * i + 1) := by
  refine ⟨fun h i hi => ⟨h _ (by omega), h _ (by omega)⟩, fun h k hk => ?_⟩
  obtain ⟨i, rfl | rfl⟩ := k.even_or_odd'
  · exact (h i (by omega)).1
  · exact (h i (by omega)).2

/-- Settles O22, pair by pair: its two windows are the tolerance around the etalon pair of the value's bit. -/
theorem decodeValueWithinTolerance : Obligations.DecodeValueWithinTolerance := by
  intro ts n v
  have hpairs : withinTolerance ts (etalonTimings v n) ↔
      ts.length = 2 * n ∧ ∀ i, i < n → pairBit ts i = .ok (v.testBit (n - 1 - i)) := by
    rw [withinTolerance, etalonTimings, length_etalonPairs, forall_lt_two_mul_iff]
    refine and_congr_right fun _ => forall₂_congr fun i hi => ?_
    obtain ⟨hmark, hspace⟩ := getD_etalonPairs (fun j => v.testBit (n - 1 - j)) hi
    rw [pairBit, decodeBit_eq_ok_iff_tolerance, hmark, hspace]
  rw [decodeValue_eq_ok_iff, hpairs, and_left_comm]

/-! ## DECVAL (R70) -/

/-- The payload is the expected length with the actual one, or a timing. -/
theorem decodeValue_error_fits {p : Params} (hp : p.wf) {ts : List Nat} {n : Nat} {e : BlockError}
    (h : decodeValue ts n = .error e) (hn : 2 * n < 2 ^ 16) (hl : ts.length < 2 ^ 16)
    (hts : ∀ x ∈ ts, x < 2 ^ p.tw) : e.Fits p := by
  by_cases hlen : ts.length = 2 * n
  · rw [decodeValue_of_length hlen] at h
    exact decodePairs_error_fits h hts
  · rw [decodeValue_of_length_ne hlen] at h
    cases h
    exact BlockError.fits_of_lt hp hn hl

theorem illegalSlice_eq_false_iff {s : State} {base len bits : BitVec 8} :
    illegalSlice s base len bits = false ↔
      bits.toNat ≤ 16 ∧ base.toNat + len.toNat ≤ min s.count 43 := by
  simp [illegalSlice, writtenLen]

/-- DECVAL with legal operands goes on with decode_value of its slice. -/
theorem exec_decval_of_slice {s : State} {base len bits : BitVec 8} {ts : List Nat} (hb : bits.toNat ≤ 16)
    (hl : base.toNat + len.toNat ≤ min s.count 43) (hts : s.seq.slice base.toNat len.toNat = .ok ts) :
    exec (.decval base len bits) s =
      .next (s.conclude (decvalWord base len bits) (decodeValue ts bits.toNat)) := by
  simp only [exec, execDecval, illegalSlice_eq_false_iff.2 ⟨hb, hl⟩]
  exact withSlice_eq_next.2 ⟨ts, hts, rfl⟩

/-- Settles O23: the slice is written, so it is read, and decode_value of it is concluded with. -/
theorem decvalCompletes : Obligations.DecvalCompletes := by
  intro s base len bits hs hb hl
  obtain ⟨ts, hts, hlen, hread, hfit⟩ := hs.slice hl
  have hexec := exec_decval_of_slice hb hl hts
  have hop := opField_decvalWord base len bits
  refine ⟨ts, hlen, hread, ?_⟩
  cases hd : decodeValue ts bits.toNat with
  | ok v =>
    obtain ⟨-, hv, -⟩ := decodeValue_eq_ok_iff.1 hd
    refine .inl ⟨v, rfl, hv.trans_le (Nat.pow_le_pow_right (by decide) hb), ?_⟩
    rw [hexec, hd]
    exact congrArg _ (succeed_eq_commandOutcome s hop)
  | error e =>
    obtain ⟨h1, h2⟩ := decodeValue_error_fits hs.widths hd (by omega) (by omega) hfit
    refine .inr ⟨e, rfl, ?_⟩
    rw [hexec, hd]
    exact congrArg _ (raise_eq_commandOutcome s hop h1 h2)

/-! ## The bit count 0 (R75) -/

theorem decvalWord_zero_zero (base : BitVec 8) : decvalWord base 0 0 = 0x40000000#32 + base.setWidth 32 :=
  append_eq_append_zero_add 0x400000#24 base

/-- Settles O21: no list but the empty one has the length 0, and an empty slice lies within any frame. -/
theorem zeroBitCount : Obligations.ZeroBitCount := by
  refine ⟨rfl, fun ts hts => decodeValue_of_length_ne (by simpa using hts), fun s base hbase => ?_⟩
  calc exec (.decval base 0 0) s
      = .next (s.succeed (decvalWord base 0 0) 0) := exec_decval_of_slice (ts := []) (by decide) hbase rfl
    _ = _ := by
      rw [succeed_eq_commandOutcome s (op := 4) (opField_decvalWord base 0 0), decvalWord_zero_zero]

end Sys2Proof.Machine
end

section
/-! PROOF. The checksum as the sum of the value's four nibbles in 4 bits, and the outcome of CHKSUM
(spec/43_checksum_engine.md rules R80 to R83). -/

namespace Sys2Proof.Machine

/-! ## The sum in 4 bits (R81) -/

/-- The mask leaves the low 4 bits of the shifted value, which are slice `d[4k+3:4k]`. -/
theorem setWidth_nibble (d : BitVec 16) (k : Nat) : (nibble d k).setWidth 4 = d.extractLsb' (4 * k) 4 := by
  have hmask : (0x0F#8).setWidth 4 = BitVec.allOnes 4 := by decide
  rw [nibble, BitVec.setWidth_and, hmask, BitVec.and_allOnes, BitVec.setWidth_setWidth_of_le _ (by decide),
    BitVec.setWidth_ushiftRight_eq_extractLsb]

/-- The low 4 bits of a sum depend on the low 4 bits of its terms alone, so the width of R81's adder does not
show. -/
theorem calculateChecksum_eq_sum (d : BitVec 16) :
    calculateChecksum d =
      [d.extractLsb' 12 4, d.extractLsb' 8 4, d.extractLsb' 4 4, d.extractLsb' 0 4].sum := by
  have hadd (x y : BitVec 8) : (x + y).setWidth 4 = x.setWidth 4 + y.setWidth 4 :=
    BitVec.setWidth_add x y (by decide)
  simp only [calculateChecksum, hadd, setWidth_nibble, Nat.reduceMul, BitVec.zero_add, List.sum_cons, List.sum_nil,
    add_zero]
  ac_rfl

/-- The slices of a value written out in nibbles are those nibbles. -/
theorem extractLsb'_nibbles (a b c d : BitVec 4) :
    (a ++ b ++ c ++ d).extractLsb' 12 4 = a ∧ (a ++ b ++ c ++ d).extractLsb' 8 4 = b ∧
      (a ++ b ++ c ++ d).extractLsb' 4 4 = c ∧ (a ++ b ++ c ++ d).extractLsb' 0 4 = d := by
  simp only [BitVec.extractLsb'_append_eq_of_le, BitVec.extractLsb'_append_eq_right, Nat.reduceLeDiff, Nat.reduceSub,
    BitVec.extractLsb'_eq_self, and_self]

theorem calculateChecksum_append (a b c d : BitVec 4) :
    calculateChecksum (a ++ b ++ c ++ d) = [a, b, c, d].sum := by
  obtain ⟨ha, hb, hc, hd⟩ := extractLsb'_nibbles a b c d
  rw [calculateChecksum_eq_sum, ha, hb, hc, hd]

theorem toNat_calculateChecksum (d : BitVec 16) :
    (calculateChecksum d).toNat =
      (d.toNat % 16 + d.toNat / 16 % 16 + d.toNat / 256 % 16 + d.toNat / 4096) % 16 := by
  have hd : d.toNat < 65536 := d.isLt
  simp only [calculateChecksum_eq_sum, List.sum_cons, List.sum_nil, add_zero, BitVec.toNat_add,
    BitVec.extractLsb'_toNat, Nat.shiftRight_eq_div_pow]
  omega

/-- Settles O24: the value is below 2^16, so its last nibble is a quotient and each nibble at most 15. -/
theorem checksumIsNibbleSum : Obligations.ChecksumIsNibbleSum := by
  intro d
  have hd : d.toNat < 65536 := d.isLt
  exact ⟨toNat_calculateChecksum d, by omega⟩

/-- Settles O25: the sum of a list does not depend on its order (R83). -/
theorem checksumIgnoresNibbleOrder : Obligations.ChecksumIgnoresNibbleOrder := by
  refine ⟨fun a b c d a' b' c' d' hperm => ?_, by decide⟩
  rw [calculateChecksum_append, calculateChecksum_append, hperm.sum_eq]

/-! ## CHKSUM (R80) -/

/-- The nibbles of the operand are the low four of OPA. -/
theorem setWidth_calculateChecksum_chksumOperand (s : State) :
    (calculateChecksum (chksumOperand s)).setWidth 16 =
      BitVec.ofNat 16 ((s.opa % 16 + s.opa / 16 % 16 + s.opa / 256 % 16 + s.opa / 4096 % 16) % 16) := by
  have hopd : (chksumOperand s).toNat = s.opa % 65536 := BitVec.toNat_ofNat _ _
  rw [← BitVec.ofNat_toNat, toNat_calculateChecksum, hopd]
  congr 1
  omega

/-- Settles O26: CHKSUM succeeds in every state with its operand's checksum. -/
theorem chksumCompletes : Obligations.ChksumCompletes := by
  intro s
  calc exec .chksum s
      = .next (s.succeed chksumWord ((calculateChecksum (chksumOperand s)).setWidth 16)) := rfl
    _ = _ := by
      rw [succeed_eq_commandOutcome s (op := 5) rfl, setWidth_calculateChecksum_chksumOperand, chksumWord]

end Sys2Proof.Machine
end

section
/-! PROOF. The frame decoder: the outcome of DECODE by the count, the gates of a frame in the literal windows of
their timings, the errors they end in, and the ideal frame region by region
(spec/44_frame_decoder.md rules R90 to R101; spec/20_memory.md rule R31). -/

namespace Sys2Proof.Machine

/-! ## The count (R95, R96) -/

theorem countGate_of_ne {n : Nat} (h0 : n ≠ 0) (h43 : n ≠ 43) :
    countGate n = .error (.wrongTimingsNumber 43 n) := by
  simp [countGate, h0, h43]

theorem decodeFrame_of_length_eq_zero {ts : List Nat} (h : ts.length = 0) : decodeFrame ts = .error .emptySequence := by
  simp [decodeFrame, h, countGate]

theorem decodeFrame_of_length_ne {ts : List Nat} (h0 : ts.length ≠ 0) (h43 : ts.length ≠ 43) :
    decodeFrame ts = .error (.wrongTimingsNumber 43 ts.length) := by
  rw [decodeFrame, countGate_of_ne h0 h43]

theorem decodeFrame_of_length {ts : List Nat} (h : ts.length = 43) : decodeFrame ts = contentGates ts := by
  simp [decodeFrame, h, countGate]

/-! ## DECODE (R90, R92, R94) -/

theorem exec_decode_of_sat {s : State} (h : s.status.sat = true) :
    exec .decode s = .next (s.illegal decodeWord) := if_pos h

/-- A count that fails its gate is judged without SEQ. -/
theorem exec_decode_of_countGate_error {s : State} {e : BlockError} (hs : s.status.sat = false)
    (he : countGate s.count = .error e) : exec .decode s = .next (s.raise decodeWord e) := by
  simp [exec, execDecode, hs, he]

/-- Settles O28: SAT is tested before anything of the frame. -/
theorem decodeIllegalUnderSat : Obligations.DecodeIllegalUnderSat := by
  intro s hs
  calc exec .decode s
      = .next (s.illegal decodeWord) := exec_decode_of_sat hs
    _ = _ := congrArg _ (illegal_eq_commandOutcome s rfl)

/-- Settles O27: the count's gate is the first of decode_frame, and DECODE judges it before it reads SEQ. -/
theorem countDecidesBeforeContent : Obligations.CountDecidesBeforeContent := by
  refine ⟨decodeFrame_of_length_eq_zero rfl, fun ts => decodeFrame_of_length_ne, fun s hs h0 => ?_,
    fun s hp hfit hs h0 h43 => ?_⟩
  · have hgate : countGate s.count = .error .emptySequence := by rw [h0]; rfl
    rw [exec_decode_of_countGate_error hs hgate]
    exact congrArg _ (raise_eq_commandOutcome s rfl (Nat.two_pow_pos _) (Nat.two_pow_pos _))
  · have hgate := countGate_of_ne h0 h43
    obtain ⟨ha, hb⟩ := countGate_error_fits hp hgate hfit
    rw [exec_decode_of_countGate_error hs hgate]
    exact congrArg _ (raise_eq_commandOutcome s rfl ha hb)

/-- Settles O32: DECODE concludes with decode_frame of the frame that SEQ holds. -/
theorem decodeCompletes : Obligations.DecodeCompletes := by
  intro s hi hs hc
  obtain ⟨ts, -, hlen, hread, hfit⟩ := hi.slice (base := 0) (len := 43) (by omega)
  simp only [Nat.zero_add] at hread
  have hframe : s.HoldsFrame ts := ⟨hc.trans hlen.symm, hs, fun k _ hk => hread k hk⟩
  refine ⟨ts, hlen, hread, ?_⟩
  rw [hframe.exec_decode]
  cases hd : decodeFrame ts with
  | ok v => exact .inl ⟨v, rfl, decodeFrame_lt hd, congrArg _ (succeed_eq_commandOutcome s rfl)⟩
  | error e =>
    obtain ⟨ha, hb⟩ := decodeFrame_error_fits hi.widths hd (hframe.count ▸ hi.countFits) hfit
    exact .inr ⟨e, rfl, congrArg _ (raise_eq_commandOutcome s rfl ha hb)⟩

/-! ## The gates (R91) -/

/-- The two preamble timings are in their windows (R97). -/
abbrev PreambleValid (ts : List Nat) : Prop :=
  6480 ≤ ts.getD 0 0 ∧ ts.getD 0 0 ≤ 10800 ∧ 2880 ≤ ts.getD 1 0 ∧ ts.getD 1 0 ≤ 4800

/-- The epilogue is in its window (R98). -/
abbrev EpilogueValid (ts : List Nat) : Prop := 360 ≤ ts.getD 42 0 ∧ ts.getD 42 0 ≤ 600

/-- The window of a timing in the frame; a missing one reads 0, which is in no window. -/
theorem timingAtValid_iff (ts : List Nat) (k m : Nat) :
    timingAtValid ts k m = true ↔ 1 ≤ m ∧ 360 * m ≤ ts.getD k 0 ∧ ts.getD k 0 ≤ 600 * m := by
  rw [timingAtValid, List.getD_eq_getElem?_getD]
  cases ts[k]? with
  | some t => exact isTimingValid_iff t m
  | none =>
    simp only [Option.getD_none, Bool.false_eq_true, false_iff]
    omega

theorem preambleValid_iff (ts : List Nat) :
    (timingAtValid ts 0 mPre0 && timingAtValid ts 1 mPre1) = true ↔ PreambleValid ts := by
  simp only [Bool.and_eq_true, timingAtValid_iff, mPre0, mPre1]
  omega

theorem epilogueValid_iff (ts : List Nat) : timingAtValid ts epiLo mEpi = true ↔ EpilogueValid ts := by
  simp only [timingAtValid_iff, epiLo, mEpi]
  omega

theorem checksumGate_eq_error_iff {c d : Nat} {e : BlockError} :
    checksumGate c d = .error e ↔
      c ≠ (calculateChecksum (BitVec.ofNat 16 d)).toNat ∧
      e = .checksumMismatch c (calculateChecksum (BitVec.ofNat 16 d)).toNat := by
  unfold checksumGate
  split
  · next hne => rw [Except.error.injEq, and_iff_right hne, eq_comm]
  · next heq => simp only [reduceCtorEq, heq, false_and]

theorem checksumGate_eq_ok_iff {c d v : Nat} :
    checksumGate c d = .ok v ↔ c = (calculateChecksum (BitVec.ofNat 16 v)).toNat ∧ d = v := by
  constructor
  · intro h
    obtain rfl := checksumGate_eq_ok h
    refine ⟨?_, rfl⟩
    by_contra hne
    cases h.symm.trans (checksumGate_eq_error_iff.2 ⟨hne, rfl⟩)
  · rintro ⟨rfl, rfl⟩
    exact if_neg (not_not.2 rfl)

/-- The gates after the count's, with their windows and regions in numbers. -/
theorem contentGates_eq (ts : List Nat) :
    contentGates ts =
      if ¬PreambleValid ts then .error .wrongPreamble
      else if ¬EpilogueValid ts then .error .wrongEpilogue
      else (decodeValue ((ts.drop 34).take 8) 4).bind fun expected =>
        (decodeValue ((ts.drop 2).take 32) 16).bind fun data => checksumGate expected data := by
  simp only [contentGates, region, Bool.not_eq_true', ← Bool.not_eq_true, preambleValid_iff, epilogueValid_iff]
  cases decodeValue ((ts.drop 34).take 8) 4 with
  | error e => rfl
  | ok expected => cases decodeValue ((ts.drop 2).take 32) 16 <;> rfl

theorem contentGates_of_valid {ts : List Nat} (hpre : PreambleValid ts) (hepi : EpilogueValid ts) :
    contentGates ts =
      (decodeValue ((ts.drop 34).take 8) 4).bind fun expected =>
        (decodeValue ((ts.drop 2).take 32) 16).bind fun data => checksumGate expected data := by
  rw [contentGates_eq, if_neg (not_not.2 hpre), if_neg (not_not.2 hepi)]

/-- Settles O29: each clause decides the tests up to its own gate. -/
theorem frameGatesInOrder : Obligations.FrameGatesInOrder := by
  intro ts
  refine ⟨decodeFrame_of_length_eq_zero, decodeFrame_of_length_ne, fun hlen => ?_⟩
  rw [decodeFrame_of_length hlen]
  refine ⟨fun hpre => ?_, fun hpre hepi => ?_, fun hpre hepi e he => ?_, fun hpre hepi c hc e he => ?_,
    fun hpre hepi c hc d hd hne => ?_, fun hpre hepi d hd hc => ?_⟩
  · rw [contentGates_eq, if_pos hpre]
  · rw [contentGates_eq, if_neg (not_not.2 hpre), if_pos hepi]
  · rw [contentGates_of_valid hpre hepi, he]; rfl
  · rw [contentGates_of_valid hpre hepi, hc, Except.bind, he]; rfl
  · rw [contentGates_of_valid hpre hepi, hc, Except.bind, hd]; exact checksumGate_eq_error_iff.2 ⟨hne, rfl⟩
  · rw [contentGates_of_valid hpre hepi, hc, Except.bind, hd]; exact checksumGate_eq_ok_iff.2 ⟨rfl, rfl⟩

/-! ## The errors of a full frame (R100, R101) -/

/-- The error reports a mark or a space of the frame that is outside its windows. -/
def BlockError.ReportsTimingOf (e : BlockError) (ts : List Nat) : Prop :=
  (∃ t ∈ ts, e = .abnormalLedOnBitValue t ∧ ¬(360 ≤ t ∧ t ≤ 600)) ∨
  (∃ t ∈ ts, e = .abnormalLedOffBitValue t ∧ ¬(360 ≤ t ∧ t ≤ 600) ∧ ¬(1080 ≤ t ∧ t ≤ 1800))

theorem BlockError.ReportsTimingOf.mono {e : BlockError} {ts us : List Nat} (h : e.ReportsTimingOf ts)
    (hsub : ts ⊆ us) : e.ReportsTimingOf us :=
  h.imp (fun ⟨t, ht, he⟩ => ⟨t, hsub ht, he⟩) fun ⟨t, ht, he⟩ => ⟨t, hsub ht, he⟩

theorem decodeBit_error_reportsTiming {on off : Nat} {e : BlockError} (h : decodeBit on off = .error e) :
    e.ReportsTimingOf [on, off] := by
  rw [decodeBit_eq] at h
  split_ifs at h with hon h0 h1
  · cases h; exact .inr ⟨off, by simp, rfl, h0, h1⟩
  · cases h; exact .inl ⟨on, by simp, rfl, hon⟩

/-- A list of the right length can only fail on a timing. -/
theorem decodeValue_error_reportsTiming {ts : List Nat} {n : Nat} {e : BlockError} (hl : ts.length = 2 * n)
    (h : decodeValue ts n = .error e) : e.ReportsTimingOf ts := by
  rw [decodeValue_of_length hl, decodePairs_eq_error_iff hl] at h
  obtain ⟨k, hk, -, he⟩ := h
  refine (decodeBit_error_reportsTiming he).mono ?_
  rw [List.getD_eq_getElem _ _ (by omega), List.getD_eq_getElem _ _ (by omega)]
  simp

/-- The regions of a full frame have the lengths their fields ask for (R100). -/
theorem decodeValue_region_error_reportsTiming {ts : List Nat} {lo n : Nat} {e : BlockError}
    (hl : lo + 2 * n ≤ ts.length) (h : decodeValue ((ts.drop lo).take (2 * n)) n = .error e) :
    e.ReportsTimingOf ts :=
  (decodeValue_error_reportsTiming (by simp; omega) h).mono
    fun _ hx => List.mem_of_mem_drop (List.mem_of_mem_take hx)

/-- The errors of the gates after the count's, where the regions have their lengths. -/
theorem contentGates_error_cases {ts : List Nat} {e : BlockError} (hl : ts.length = 43)
    (h : contentGates ts = .error e) :
    e = .wrongPreamble ∨ e = .wrongEpilogue ∨ e.ReportsTimingOf ts ∨
      ∃ c a, e = .checksumMismatch c a ∧ c < 16 ∧ a < 16 ∧ c ≠ a := by
  rw [contentGates_eq] at h
  split_ifs at h
  · refine .inr (.inr ?_)
    cases hc : decodeValue ((ts.drop 34).take 8) 4 with
    | error e' =>
      rw [hc] at h; cases h
      exact .inl (decodeValue_region_error_reportsTiming (n := 4) (by omega) hc)
    | ok c =>
      rw [hc, Except.bind] at h
      cases hd : decodeValue ((ts.drop 2).take 32) 16 with
      | error e' =>
        rw [hd] at h; cases h
        exact .inl (decodeValue_region_error_reportsTiming (n := 16) (by omega) hd)
      | ok d =>
        rw [hd, Except.bind] at h
        obtain ⟨hne, rfl⟩ := checksumGate_eq_error_iff.1 h
        exact .inr ⟨_, _, rfl, decodeValue_lt (n := 4) (by decide) hc, (calculateChecksum _).isLt, hne⟩
  · cases h; exact .inr (.inl rfl)
  · cases h; exact .inl rfl

/-- Settles O30, by the gate that fails. -/
theorem frameErrorKinds : Obligations.FrameErrorKinds := by
  intro ts e hl h
  rw [decodeFrame_of_length hl] at h
  simpa only [BlockError.ReportsTimingOf, or_assoc] using contentGates_error_cases hl h

/-! ## The ideal frame (R31, R47) -/

/-- What passes every gate is the value whose checksum the frame carries. -/
theorem contentGates_eq_ok_iff {ts : List Nat} {v : Nat} :
    contentGates ts = .ok v ↔
      PreambleValid ts ∧ EpilogueValid ts ∧
      decodeValue ((ts.drop 34).take 8) 4 = .ok (calculateChecksum (BitVec.ofNat 16 v)).toNat ∧
      decodeValue ((ts.drop 2).take 32) 16 = .ok v := by
  rw [contentGates_eq]
  split_ifs with hpre hepi
  · rw [and_iff_right hpre, and_iff_right hepi]
    cases decodeValue ((ts.drop 34).take 8) 4 with
    | error e => simp [Except.bind]
    | ok c => cases decodeValue ((ts.drop 2).take 32) 16 <;> simp [Except.bind, checksumGate_eq_ok_iff]
  · simp only [hepi, false_and, and_false]
  · simp only [hpre, false_and]

theorem decodeFrame_eq_ok_iff {ts : List Nat} {v : Nat} :
    decodeFrame ts = .ok v ↔ ts.length = 43 ∧ contentGates ts = .ok v := by
  unfold decodeFrame
  split
  · next hg =>
    have hl : ts.length ≠ 43 := fun hl => by rw [hl] at hg; cases hg
    simp [hl]
  · next hg => simp [countGate_eq_ok hg]

/-- The tolerance, timing by timing. -/
theorem withinTolerance_iff_forall₂ {ts es : List Nat} :
    withinTolerance ts es ↔ List.Forall₂ (fun t e => 3 * e ≤ 4 * t ∧ 4 * t ≤ 5 * e) ts es := by
  rw [withinTolerance, List.forall₂_iff_get]
  refine and_congr_right fun hl => ⟨fun h k ht he => ?_, fun h k he => ?_⟩
  · simpa [ht, he] using h k he
  · simpa [hl, he] using h k (hl ▸ he) he

/-- The tolerance of a sequence of parts is that of each part. -/
theorem withinTolerance_append_iff {ts es fs : List Nat} :
    withinTolerance ts (es ++ fs) ↔
      withinTolerance (ts.take es.length) es ∧ withinTolerance (ts.drop es.length) fs := by
  simp only [withinTolerance_iff_forall₂]
  refine ⟨fun h => ⟨List.forall₂_take_append _ _ _ h, List.forall₂_drop_append _ _ _ h⟩, fun h => ?_⟩
  rw [← List.take_append_drop es.length ts]
  exact List.rel_append h.1 h.2

theorem withinTolerance_preamble_iff {ts : List Nat} (hl : ts.length = 43) :
    withinTolerance (ts.take 2) [8640, 3840] ↔ PreambleValid ts := by
  obtain _ | ⟨a, _ | ⟨b, us⟩⟩ := ts
  · cases hl
  · cases hl
  · simp only [withinTolerance_iff_forall₂, List.take_succ_cons, List.take_zero, List.forall₂_cons,
      List.Forall₂.nil, and_true, PreambleValid, List.getD_cons_zero, List.getD_cons_succ]
    omega

theorem withinTolerance_epilogue_iff {ts : List Nat} (hl : ts.length = 43) :
    withinTolerance (ts.drop 42) [480] ↔ EpilogueValid ts := by
  rw [List.drop_eq_getElem_cons (by omega), List.drop_eq_nil_of_le (by omega), EpilogueValid,
    List.getD_eq_getElem _ _ (by omega)]
  simp only [withinTolerance_iff_forall₂, List.forall₂_cons, List.Forall₂.nil, and_true]
  omega

theorem length_etalonTimings (v n : Nat) : (etalonTimings v n).length = 2 * n := length_etalonPairs _ n

theorem length_etalonFrame (d : BitVec 16) : (etalonFrame d).length = 43 := by
  simp [etalonFrame, length_etalonTimings]

/-- The tolerance of a frame, region by region (R31). -/
theorem withinTolerance_etalonFrame_iff {ts : List Nat} {d : BitVec 16} :
    withinTolerance ts (etalonFrame d) ↔
      ts.length = 43 ∧ PreambleValid ts ∧ EpilogueValid ts ∧
      withinTolerance ((ts.drop 34).take 8) (etalonTimings (calculateChecksum d).toNat 4) ∧
      withinTolerance ((ts.drop 2).take 32) (etalonTimings d.toNat 16) := by
  rw [← and_iff_right_of_imp fun h : withinTolerance ts (etalonFrame d) => h.1.trans (length_etalonFrame d)]
  refine and_congr_right fun hl => ?_
  rw [← withinTolerance_preamble_iff hl, ← withinTolerance_epilogue_iff hl]
  simp only [etalonFrame, List.append_assoc, withinTolerance_append_iff, length_etalonTimings, List.drop_drop,
    List.length_cons, List.length_nil, Nat.reduceAdd, Nat.reduceMul]
  tauto

/-- Settles O31, region by region: a region decodes to a value exactly within tolerance of its etalon. -/
theorem frameDecodesExactlyWithinTolerance : Obligations.FrameDecodesExactlyWithinTolerance := by
  intro ts v
  have hchk := (calculateChecksum (BitVec.ofNat 16 v)).isLt
  rw [decodeFrame_eq_ok_iff, contentGates_eq_ok_iff, decodeValueWithinTolerance, decodeValueWithinTolerance,
    and_iff_right hchk, withinTolerance_etalonFrame_iff]
  by_cases hv : v < 2 ^ 16
  · rw [and_iff_right hv, and_iff_right hv, BitVec.toNat_ofNat, Nat.mod_eq_of_lt hv]
  · simp only [hv, false_and, and_false]

end Sys2Proof.Machine
end

section
/-! PROOF. The outcomes of frame control and the data moves, and what the host reads after the run of one frame
(spec/45_frame_control.md rules R110 to R114; spec/10_state.md rule R15). -/

namespace Sys2Proof.Machine

/-! ## The life of one frame (R114) -/

/-- Settles O49: the frame's script runs to the conclusion of decode_frame of its timings, and the host reads that
conclusion back because its value or payload fits the outcome registers. -/
theorem frameRunDecodesItsTimings : Obligations.FrameRunDecodesItsTimings := by
  intro s ts rest hi hl ht hp
  obtain ⟨u, hrun, hcount, hpend, hparams, hopa, hopb, hreads⟩ := core_run_frameScript hp hl ht
  have hfit : ∀ e, decodeFrame ts = .error e → e.Fits u.params := fun e he =>
    hparams ▸ decodeFrame_error_fits hi.widths he hl ht
  refine ⟨_, hrun, outcomeOf_conclude decodeWord (fun v => decodeFrame_lt) hfit, ?_⟩
  simp [hcount, hopa, hopb, hpend, hreads]

/-! ## CLEAR (R110) -/

/-- Settles O33: CLEAR concludes with the value 0 on the empty frame. -/
theorem clearCompletes : Obligations.ClearCompletes := fun s =>
  ⟨_, (exec_clear s).trans (congrArg _ (succeed_eq_commandOutcome s.clearFrame (w := clearWord) (op := 1) rfl)),
    rfl, rfl, rfl, fun _ => rfl, rfl, rfl, rfl, rfl, rfl, rfl, rfl, rfl⟩

/-! ## PUSH (R111) -/

theorem Memory.read_write (m : Memory) (k t j : Nat) :
    (m.write k t).read j = if j = k then some t else m.read j := by
  split
  · next h => rw [h, Memory.read_write_self]
  · next h => exact Memory.read_write_of_ne m t h

/-- A PUSH writes entry COUNT of SEQ, and none once SEQ is full (R30, R111). -/
theorem State.pushSample_read (s : State) (t k : Nat) :
    (s.pushSample t).seq.read k = if k = s.count ∧ s.count < 43 then some t else s.seq.read k := by
  rw [State.pushSample_seq]
  by_cases hc : s.count < 43
  · rw [if_pos hc, Memory.read_write]
    simp only [hc, and_true]
  · rw [if_neg hc, if_neg fun h => hc h.2]

theorem State.pushSample_of_lt {s : State} (h : s.count < countMax s.params) (t : Nat) :
    (s.pushSample t).count = s.count + 1 ∧ (s.pushSample t).status = s.status := by
  simp [h]

theorem State.pushSample_of_le {s : State} (h : countMax s.params ≤ s.count) (t : Nat) :
    (s.pushSample t).count = s.count ∧ (s.pushSample t).status = { s.status with sat := true } := by
  simp [Nat.not_lt.2 h]

/-- Settles O34: a timing that fits gets its update of SEQ, COUNT and SAT, and the other fields stay. -/
theorem pushCompletes : Obligations.PushCompletes := fun s x hx =>
  ⟨s.pushSample x, withTiming_eq_next.2 ⟨hx, rfl⟩, State.pushSample_read s x,
    fun h => State.pushSample_of_lt h x, fun h => State.pushSample_of_le h x,
    rfl, rfl, rfl, rfl, rfl, rfl, rfl, rfl, rfl⟩

/-! ## SETA and SETB (R112) -/

/-- Settles O35: a value that fits gets its update, which is that of the one register. -/
theorem setOperandCompletes : Obligations.SetOperandCompletes := fun _ _ hv =>
  ⟨withTiming_eq_next.2 ⟨hv, rfl⟩, withTiming_eq_next.2 ⟨hv, rfl⟩⟩

/-! ## RD (R113) -/

theorem toNat_append_eq_mul_add {v w : Nat} (x : BitVec v) (y : BitVec w) :
    (x ++ y).toNat = x.toNat * 2 ^ w + y.toNat := by
  rw [BitVec.toNat_append, ← Nat.shiftLeft_add_eq_or_of_lt y.isLt, Nat.shiftLeft_eq]

/-- The fields of STATUS by their weights (R15). -/
theorem Status.toNat_word (st : Status) :
    st.word.toNat = st.err.toNat + 16 * st.done.toNat + 32 * st.sat.toNat + 256 * st.op.toNat := by
  simp only [Status.word, toNat_append_eq_mul_add, BitVec.toNat_ofBool, BitVec.toNat_ofNat]
  omega

/-- Settles O36: the read returns the register as it stands, and STATUS is stored as its fields. -/
theorem readReturnsRegister : Obligations.ReadReturnsRegister := by
  intro s r
  cases r with
  | status => rw [← Status.toNat_word]; rfl
  | cmd | sample | count | opa | opb | result | errA | errB => rfl

end Sys2Proof.Machine
end

section
/-! PROOF. The host shell: the tokens of a line, their values, the rendering of a value, and decode_text as the
frame decoder or the block behind it (spec/46_host_shell.md rules R120 to R126). -/

namespace Sys2Proof.Machine

/-! ## Tokens (R121) -/

theorem isWhitespace_iff {c : Char} :
    isWhitespace c = true ↔ c.toNat ∈ [0x20, 0x09, 0x0A, 0x0B, 0x0C, 0x0D] := by
  simp [isWhitespace, or_assoc]

theorem endToken_reverse {run : List Char} (hne : run ≠ []) (rest : List (List Char)) :
    endToken run.reverse rest = run :: rest := by
  simp [endToken, hne]

theorem tokensFrom_cons_of_whitespace {c : Char} (h : isWhitespace c = true) (cs token : List Char) :
    tokensFrom (c :: cs) token = endToken token (tokens cs) := by
  rw [tokensFrom, if_pos h, tokens]

/-- Characters of a token are added to the one being read. -/
theorem tokensFrom_append {run : List Char} (h : ∀ c ∈ run, isWhitespace c = false) (cs token : List Char) :
    tokensFrom (run ++ cs) token = tokensFrom cs (run.reverse ++ token) := by
  induction run generalizing token with
  | nil => rfl
  | cons c run ih =>
    obtain ⟨hc, hrun⟩ := List.forall_mem_cons.1 h
    rw [List.cons_append, tokensFrom, if_neg (by simp [hc]), ih hrun, List.reverse_cons, List.append_assoc,
      List.singleton_append]

/-- A token ends where the line does. -/
theorem tokens_run {run : List Char} (hne : run ≠ []) (h : ∀ c ∈ run, isWhitespace c = false) :
    tokens run = [run] := by
  have hread : tokens run = tokensFrom [] run.reverse := by
    simpa [tokens] using tokensFrom_append h [] []
  rw [hread, tokensFrom, endToken_reverse hne]

/-- A token ends at a white-space character. -/
theorem tokens_run_append_cons {run : List Char} (hne : run ≠ []) (h : ∀ c ∈ run, isWhitespace c = false)
    {c : Char} (hc : isWhitespace c = true) (cs : List Char) : tokens (run ++ c :: cs) = run :: tokens cs := by
  rw [tokens, tokensFrom_append h, tokensFrom_cons_of_whitespace hc, List.append_nil, endToken_reverse hne]

theorem tokens_of_blank {line : List Char} (h : ∀ c ∈ line, isWhitespace c = true) : tokens line = [] := by
  induction line with
  | nil => rfl
  | cons c cs ih =>
    obtain ⟨hc, hcs⟩ := List.forall_mem_cons.1 h
    exact (tokensFrom_cons_of_whitespace hc cs []).trans (ih hcs)

/-- Splitting undoes joining by single spaces. -/
theorem tokens_intercalate {toks : List (List Char)}
    (h : ∀ tok ∈ toks, tok ≠ [] ∧ ∀ c ∈ tok, isWhitespace c = false) :
    tokens ([' '].intercalate toks) = toks := by
  induction toks with
  | nil => rfl
  | cons tok rest ih =>
    obtain ⟨⟨hne, htok⟩, hrest⟩ := List.forall_mem_cons.1 h
    cases rest with
    | nil => rw [List.intercalate_singleton, tokens_run hne htok]
    | cons tok' rest =>
      rw [List.intercalate_cons_cons, List.append_assoc, List.singleton_append,
        tokens_run_append_cons hne htok (by decide), ih hrest]

/-! ## Values of tokens (R123) -/

/-- A digit is one of the characters '0' to '9', of the value that its place after '0' gives. -/
theorem digitValue_eq (c : Char) : digitValue c = if '0' ≤ c ∧ c ≤ '9' then some (c.toNat - 48) else none := rfl

theorem decimalValue_eq_some_iff {cs : List Char} {acc v : Nat} :
    decimalValue cs acc = some v ↔
      (∀ c ∈ cs, '0' ≤ c ∧ c ≤ '9') ∧ cs.foldl (fun acc c => 10 * acc + (c.toNat - 48)) acc = v := by
  induction cs generalizing acc with
  | nil => simp [decimalValue]
  | cons c cs ih =>
    rw [decimalValue, digitValue_eq, List.forall_mem_cons, List.foldl_cons]
    by_cases hc : '0' ≤ c ∧ c ≤ '9'
    · rw [if_pos hc, and_iff_right hc]
      exact ih
    · rw [if_neg hc]
      exact iff_of_false nofun fun h => hc h.1.1

theorem parseToken_eq_some_iff {tw : Nat} {token : List Char} {v : Nat} :
    parseToken tw token = some v ↔ token ≠ [] ∧ decimalValue token 0 = some v ∧ v < 2 ^ tw := by
  rw [parseToken]
  cases token with
  | nil => simp
  | cons c cs =>
    cases decimalValue (c :: cs) 0 with
    | none => simp
    | some u => by_cases huv : u = v <;> simp [huv]

/-- Settles O52, digit by digit. -/
theorem tokenGrammar : Obligations.TokenGrammar := by
  intro tw token v
  rw [parseToken_eq_some_iff, decimalValue_eq_some_iff, and_assoc]

/-! ## All tokens, left to right (R123, R124) -/

theorem parseTokens_eq_ok_iff {tw : Nat} {toks : List (List Char)} {ts : List Nat} :
    parseTokens tw toks = .ok ts ↔ toks.map (parseToken tw) = ts.map some := by
  induction toks generalizing ts with
  | nil => cases ts <;> simp [parseTokens]
  | cons tok toks ih =>
    rw [parseTokens, List.map_cons]
    cases parseToken tw tok with
    | none => cases ts <;> simp
    | some t =>
      cases ts with
      | nil => cases parseTokens tw toks <;> simp
      | cons u us => cases h : parseTokens tw toks <;> simp [← ih, h]

theorem parseTokens_ok_lt {tw : Nat} {toks : List (List Char)} {ts : List Nat} (h : parseTokens tw toks = .ok ts) :
    ∀ x ∈ ts, x < 2 ^ tw := by
  intro x hx
  have hmem : some x ∈ toks.map (parseToken tw) := parseTokens_eq_ok_iff.1 h ▸ List.mem_map_of_mem hx
  obtain ⟨tok, -, htok⟩ := List.mem_map.1 hmem
  obtain ⟨-, -, hlt⟩ := parseToken_eq_some_iff.1 htok
  exact hlt

theorem parseTokens_eq_parseFailure {tw : Nat} {before : List (List Char)} {bad : List Char}
    (hbefore : ∀ tok ∈ before, (parseToken tw tok).isSome = true) (hbad : parseToken tw bad = none)
    (after : List (List Char)) : parseTokens tw (before ++ bad :: after) = .error (.parseFailure bad) := by
  induction before with
  | nil => rw [List.nil_append, parseTokens, hbad]
  | cons tok before ih =>
    obtain ⟨htok, hrest⟩ := List.forall_mem_cons.1 hbefore
    obtain ⟨t, ht⟩ := Option.isSome_iff_exists.1 htok
    rw [List.cons_append, parseTokens, ht, ih hrest]

/-! ## Rendering (R125) -/

theorem hexDigit_eq_getD : ∀ n : BitVec 4, hexDigit n = "0123456789abcdef".toList.getD n.toNat ' ' := by decide

/-- Settles O50: the value of a slice of bits is a quotient modulo 16, and the last quotient is below 16. -/
theorem hexRendering : Obligations.HexRendering := by
  intro d
  have htop : d.toNat / 4096 % 16 = d.toNat / 4096 := Nat.mod_eq_of_lt (by omega)
  simp [hex4, hexDigit_eq_getD, BitVec.extractLsb'_toNat, Nat.shiftRight_eq_div_pow, htop]

/-! ## decode_text (R126) -/

/-- What the shell returns for the outcome of a frame: the value rendered, or the error unchanged. -/
def renderOutcome : Except BlockError Nat → Except ShellError (List Char)
  | .ok d => .ok (hex4 (BitVec.ofNat 16 d))
  | .error e => .error (.frame e)

theorem decodeText_of_tokens_eq_nil {line : List Char} (h : tokens line = []) (tw : Nat) :
    decodeText tw line = .error (.frame .emptySequence) := by
  simp [decodeText, h]

theorem decodeText_of_parseTokens_error {tw : Nat} {line : List Char} {e : ShellError} (hne : tokens line ≠ [])
    (h : parseTokens tw (tokens line) = .error e) : decodeText tw line = .error e := by
  simp [decodeText, hne, h]

theorem decodeText_of_parseTokens_ok {tw : Nat} {line : List Char} {ts : List Nat} (hne : tokens line ≠ [])
    (h : parseTokens tw (tokens line) = .ok ts) : decodeText tw line = renderOutcome (decodeFrame ts) := by
  cases hf : decodeFrame ts <;> simp [decodeText, renderOutcome, hne, h, hf]

/-- Settles O55: the run of the frame's script reports decode_frame of the timings, which fit TW because their
tokens parse, and the shell renders that outcome. -/
theorem shellAgreesWithBlock : Obligations.ShellAgreesWithBlock := by
  intro s line ts hi hne hparse hl hp
  obtain ⟨t, hrun, hout, -⟩ :=
    frameRunDecodesItsTimings s ts [] hi hl (parseTokens_ok_lt hparse) (hp.trans (List.append_nil _).symm)
  exact ⟨t, _, hrun, hout, decodeText_of_parseTokens_ok hne hparse⟩

/-- Settles O53: the line splits into the tokens again, and they parse to their values. -/
theorem joinedTokensDecode : Obligations.JoinedTokensDecode := by
  intro tw toks ts hne htoks hparse
  have hsplit : tokens ([' '].intercalate toks) = toks := tokens_intercalate htoks
  exact decodeText_of_parseTokens_ok (by rwa [hsplit]) (by rwa [hsplit, parseTokens_eq_ok_iff])

/-- Settles O54: the parse stops at the bad token, and a failed parse is the result. -/
theorem parsingPrecedesCounting : Obligations.ParsingPrecedesCounting := by
  intro tw line before after bad hsplit hbefore hbad
  exact decodeText_of_parseTokens_error (by simp [hsplit])
    (hsplit ▸ parseTokens_eq_parseFailure hbefore hbad after)

/-- Settles O51: a blank line has no tokens. -/
theorem blankLineIsEmptySequence : Obligations.BlankLineIsEmptySequence := by
  intro tw line h
  exact decodeText_of_tokens_eq_nil (tokens_of_blank fun c hc => isWhitespace_iff.2 (h c hc)) tw

end Sys2Proof.Machine
end

section
/-! PROOF. The meaning of the outcome registers is kept by every step: the errors a command can conclude with are
those of its opcode, with the payloads of their rules (spec/60_exceptions.md rules R130, R131, R134). -/

namespace Sys2Proof.Machine

/-! ## The errors of an opcode -/

/-- The errors that the command of an opcode can raise, other than ILLEGAL_COMMAND, with the payloads they can carry
(R130, R131). -/
def BlockError.RaisedUnder (p : Params) (op : BitVec 4) : BlockError → Prop
  | .emptySequence => op = 6
  | .wrongTimingsNumber expected actual =>
    (op = 6 ∧ expected = 43 ∧ actual ≠ 0 ∧ actual ≠ 43) ∨
    (op = 4 ∧ expected % 2 = 0 ∧ expected ≤ 32 ∧ actual ≤ 43 ∧ actual ≠ expected)
  | .wrongPreamble => op = 6
  | .wrongEpilogue => op = 6
  | .abnormalLedOnBitValue t =>
    (op = 3 ∨ op = 4 ∨ op = 6) ∧ t < 2 ^ p.tw ∧ ¬(360 ≤ t ∧ t ≤ 600)
  | .abnormalLedOffBitValue t =>
    (op = 3 ∨ op = 4 ∨ op = 6) ∧ t < 2 ^ p.tw ∧ ¬(360 ≤ t ∧ t ≤ 600) ∧ ¬(1080 ≤ t ∧ t ≤ 1800)
  | .checksumMismatch expected actual => op = 6 ∧ expected < 16 ∧ actual < 16 ∧ expected ≠ actual
  | .illegalCommand _ => False

/-- An error that its opcode can raise and the registers can hold stands in them as the clause of its own code asks;
the other clauses speak of other codes. -/
theorem State.raise_outcomeInv {s : State} {w : Word} {e : BlockError} (hf : e.Fits s.params)
    (he : e.RaisedUnder s.params (opField w)) : (s.raise w e).OutcomeInv := by
  obtain ⟨ha, hb⟩ := hf
  rw [raise_eq_commandOutcome s rfl ha hb]
  cases e with
  | illegalCommand v => exact he.elim
  | emptySequence | wrongTimingsNumber _ _ | wrongPreamble | wrongEpilogue | abnormalLedOnBitValue _
  | abnormalLedOffBitValue _ | checksumMismatch _ _ =>
    constructor <;> simp only [State.commandOutcome, BlockError.code, BlockError.payload, BitVec.ofNat_eq_ofNat,
      BitVec.reduceEq, false_implies, forall_const, and_true]
    exact he

/-- A value has no code, and so no clause. -/
theorem State.conclude_outcomeInv {s : State} {w : Word} {r : Except BlockError Nat}
    (h : ∀ e, r = .error e → e.Fits s.params ∧ e.RaisedUnder s.params (opField w)) : (s.conclude w r).OutcomeInv := by
  cases r with
  | ok v => exact State.outcomeInv_of_err_eq_zero rfl
  | error e =>
    obtain ⟨hf, he⟩ := h e rfl
    exact State.raise_outcomeInv hf he

theorem State.illegal_outcomeInv (s : State) (w : Word) : (s.illegal w).OutcomeInv := by
  rw [illegal_eq_commandOutcome s rfl]
  constructor <;> simp [State.commandOutcome]

/-! ## The errors of the commands -/

/-- A timing outside its windows is an error of all three commands that judge pairs. -/
theorem BlockError.ReportsTimingOf.raisedUnder {e : BlockError} {ts : List Nat} (h : e.ReportsTimingOf ts) {p : Params}
    (hts : ∀ x ∈ ts, x < 2 ^ p.tw) {op : BitVec 4} (hop : op = 3 ∨ op = 4 ∨ op = 6) : e.RaisedUnder p op := by
  rcases h with ⟨t, ht, rfl, hon⟩ | ⟨t, ht, rfl, hoff⟩
  · exact ⟨hop, hts t ht, hon⟩
  · exact ⟨hop, hts t ht, hoff⟩

/-- DECVAL's own error is a length that is not twice its bit count (R73, R101). -/
theorem decodeValue_error_raisedUnder {p : Params} {ts : List Nat} {n : Nat} {e : BlockError}
    (h : decodeValue ts n = .error e) (hn : n ≤ 16) (hl : ts.length ≤ 43) (hts : ∀ x ∈ ts, x < 2 ^ p.tw) :
    e.RaisedUnder p 4 := by
  by_cases hlen : ts.length = 2 * n
  · exact (decodeValue_error_reportsTiming hlen h).raisedUnder hts (by decide)
  · rw [decodeValue_of_length_ne hlen] at h
    cases h
    exact .inr ⟨rfl, Nat.mul_mod_right 2 n, by omega, hl, hlen⟩

theorem countGate_error_raisedUnder (p : Params) {n : Nat} {e : BlockError} (h : countGate n = .error e) :
    e.RaisedUnder p 6 := by
  unfold countGate at h
  split_ifs at h with h0 h43
  · cases h; rfl
  · cases h; exact .inl ⟨rfl, rfl, h0, h43⟩

theorem contentGates_error_raisedUnder {p : Params} {ts : List Nat} {e : BlockError} (h : contentGates ts = .error e)
    (hl : ts.length = 43) (hts : ∀ x ∈ ts, x < 2 ^ p.tw) : e.RaisedUnder p 6 := by
  rcases contentGates_error_cases hl h with rfl | rfl | ht | ⟨c, a, rfl, hsum⟩
  · rfl
  · rfl
  · exact ht.raisedUnder hts (by decide)
  · exact ⟨rfl, hsum⟩

/-! ## Operations and steps -/

theorem State.Inv.decbit_outcomeInv {s t : State} (hi : s.Inv) (h : exec .decbit s = .next t) : t.OutcomeInv := by
  cases h
  refine State.conclude_outcomeInv fun e he => ?_
  cases hb : decodeBit s.opa s.opb with
  | ok b => simp [hb, Except.map] at he
  | error e' =>
    rw [hb] at he
    cases he
    exact ⟨decodeBit_error_fits hb hi.opaFits hi.opbFits,
      (decodeBit_error_reportsTiming hb).raisedUnder (by simp [hi.opaFits, hi.opbFits]) (by decide)⟩

theorem exec_decval_of_illegalSlice {s : State} {base len bits : BitVec 8} (h : illegalSlice s base len bits = true) :
    exec (.decval base len bits) s = .next (s.illegal (decvalWord base len bits)) := if_pos h

/-- The slice of a legal DECVAL has at most 43 timings, each a written entry. -/
theorem State.Inv.decval_outcomeInv {s t : State} {base len bits : BitVec 8} (hi : s.Inv)
    (h : exec (.decval base len bits) s = .next t) : t.OutcomeInv := by
  cases hs : illegalSlice s base len bits with
  | true =>
    rw [exec_decval_of_illegalSlice hs] at h
    cases h
    exact s.illegal_outcomeInv _
  | false =>
    obtain ⟨hb, hl⟩ := illegalSlice_eq_false_iff.1 hs
    obtain ⟨ts, hts, hlen, -, hfit⟩ := hi.slice hl
    rw [exec_decval_of_slice hb hl hts] at h
    cases h
    refine State.conclude_outcomeInv fun e he => ⟨?_, ?_⟩
    · exact decodeValue_error_fits hi.widths he (by omega) (by omega) hfit
    · rw [opField_decvalWord]
      exact decodeValue_error_raisedUnder he hb (by omega) hfit

/-- DECODE is refused under SAT, judged on its count, or judged on the 43 written entries. -/
theorem State.Inv.decode_outcomeInv {s t : State} (hi : s.Inv) (h : exec .decode s = .next t) : t.OutcomeInv := by
  cases hs : s.status.sat with
  | true =>
    rw [exec_decode_of_sat hs] at h
    cases h
    exact s.illegal_outcomeInv _
  | false =>
    cases hg : countGate s.count with
    | error e =>
      rw [exec_decode_of_countGate_error hs hg] at h
      cases h
      exact State.raise_outcomeInv (countGate_error_fits hi.widths hg hi.countFits)
        (countGate_error_raisedUnder s.params hg)
    | ok u =>
      have hc := countGate_eq_ok hg
      obtain ⟨ts, hts, hlen, -, hfit⟩ := hi.slice (base := 0) (len := 43) (by simp [hc])
      simp only [exec, execDecode, hs, hg] at h
      obtain ⟨us, hus, rfl⟩ := withSlice_eq_next.1 h
      cases hts.symm.trans hus
      rw [decodeFrame_of_length hlen]
      exact State.conclude_outcomeInv fun e he =>
        ⟨contentGates_error_fits hi.widths hlen he hfit, contentGates_error_raisedUnder he hlen hfit⟩

theorem State.Inv.judgement_outcomeInv {s t : State} {i : Instr} (hi : s.Inv) (hj : isJudgement i = true)
    (h : exec i s = .next t) : t.OutcomeInv := by
  cases i with
  | classify m => cases h; exact State.outcomeInv_of_err_eq_zero rfl
  | decbit => exact hi.decbit_outcomeInv h
  | decval base len bits => exact hi.decval_outcomeInv h
  | chksum => cases h; exact State.outcomeInv_of_err_eq_zero rfl
  | decode => exact hi.decode_outcomeInv h
  | clear | push _ | seta _ | setb _ | rd _ => cases hj

theorem State.OutcomeInv.of_exec {s t : State} {i : Instr} (ho : s.OutcomeInv) (hi : s.Inv)
    (h : exec i s = .next t) : t.OutcomeInv := by
  rcases exec_kinds h with ⟨rfl, -⟩ | ⟨hj, -⟩ | ⟨v, -, -, rfl⟩ | ⟨v, -, -, rfl⟩ | ⟨v, -, -, rfl⟩ | ⟨r, -, rfl⟩
  · cases h; exact State.outcomeInv_of_err_eq_zero rfl
  · exact hi.judgement_outcomeInv hj h
  · exact { ho with }
  · exact { ho with }
  · exact { ho with }
  · exact { ho with }

/-- Settles O41, over the kinds of steps: a command leaves an error of its opcode, an illegal word its own outcome, a
reset no error, and the other steps do not touch the outcome. -/
theorem stepKeepsOutcomeInvariant : Obligations.StepKeepsOutcomeInvariant := by
  intro s t hi ho hst
  rcases step_cases hst with ⟨-, rfl⟩ | ⟨rest, -, rfl⟩ | ⟨a, rest, i, -, -, he⟩ | ⟨a, rest, w, why, -, -, rfl⟩ |
    ⟨a, rest, r, -, -, rfl⟩
  · exact ho
  · exact State.resetBlock_outcomeInv _
  · exact State.OutcomeInv.of_exec (s := s.withPending rest) { ho with } (hi.withPending rest) he
  · exact State.illegal_outcomeInv _ w
  · exact { ho with }

end Sys2Proof.Machine
end

section
/-! PROOF. The outcome of an illegal command word, told from the word's fields (spec/30_encoding.md rule R44;
spec/60_exceptions.md rule R134). -/

namespace Sys2Proof.Machine

/-! ## The five items of R44 in a word's fields -/

theorem commandIllegal_iff_fields (s : State) (w : Word) :
    commandIllegal s w ↔
      opField w = 0#4 ∨ 7 ≤ (opField w).toNat ∨ zField w ≠ 0#4 ∨
      ((opField w = 1#4 ∨ opField w = 3#4 ∨ opField w = 5#4 ∨ opField w = 6#4) ∧
        ¬(cField w = 0#8 ∧ bField w = 0#8 ∧ aField w = 0#8)) ∨
      (opField w = 2#4 ∧ ¬(cField w = 0#8 ∧ bField w = 0#8)) ∨
      (opField w = 4#4 ∧ 16 < (cField w).toNat) ∨
      (opField w = 4#4 ∧ min s.count 43 < (aField w).toNat + (bField w).toNat) ∨
      (opField w = 6#4 ∧ s.status.sat = true) := by
  have h16 : w.extractLsb' 8 16 = 0#16 ↔ cField w = 0#8 ∧ bField w = 0#8 := extractLsb'_eq_append_iff w 8 0#8 0#8
  have h24 : w.extractLsb' 0 24 = 0#24 ↔ w.extractLsb' 8 16 = 0#16 ∧ aField w = 0#8 :=
    extractLsb'_eq_append_iff w 0 0#16 0#8
  rw [← h16, ← and_assoc, ← h16, ← h24]
  rfl

/-- Of the words that decode to a command, only those of DECVAL and DECODE can be illegal (R44 items 3 to 5). -/
theorem commandIllegal_of_decodeCommand_ok {s : State} {w : Word} {i : Instr} (hd : decodeCommand w = .ok i)
    (hl : commandIllegal s w) :
    (∃ base len bits, i = .decval base len bits ∧ w = decvalWord base len bits ∧
      illegalSlice s base len bits = true) ∨
    (i = .decode ∧ w = decodeWord ∧ s.status.sat = true) := by
  have hfields := (commandIllegal_iff_fields s w).1 hl
  have he := encode_of_decodeCommand hd
  rcases decodeCommand_ok_cases hd with rfl | ⟨m, rfl⟩ | rfl | ⟨base, len, bits, rfl⟩ | rfl | rfl <;>
    obtain rfl := word_eq_of_write_eq he
  · simp [clearWord, opField, zField, cField, bField, aField] at hfields
  · simp at hfields
  · simp [decbitWord, opField, zField, cField, bField, aField] at hfields
  · exact .inl ⟨base, len, bits, rfl, rfl, by simpa [illegalSlice, writtenLen] using hfields⟩
  · simp [chksumWord, opField, zField, cField, bField, aField] at hfields
  · exact .inr ⟨rfl, rfl, by simpa [decodeWord, opField, zField, cField, bField, aField] using hfields⟩

/-- A command word that is illegal ends in the ILLEGAL_COMMAND outcome, be it told by the decoder or by the command. -/
theorem exec_of_commandIllegal {s : State} {w : Word} {i : Instr} (hd : decodeCommand w = .ok i)
    (hl : commandIllegal s w) : exec i s = .next (s.illegal w) := by
  rcases commandIllegal_of_decodeCommand_ok hd hl with ⟨base, len, bits, rfl, rfl, hs⟩ | ⟨rfl, rfl, hs⟩
  · exact exec_decval_of_illegalSlice hs
  · exact exec_decode_of_sat hs

/-- Settles O13: the decoder tells items 1 and 2 of R44, the commands the other three, and both end alike. -/
theorem illegalCommandOutcome : Obligations.IllegalCommandOutcome := by
  intro s rest w hp hl
  have hill : step s = .next ((s.withPending rest).illegal w) := by
    rw [step_commandWord hp]
    split
    · next i hd => exact exec_of_commandIllegal (s := s.withPending rest) hd hl
    · rfl
  rw [hill]
  exact congrArg _ (illegal_eq_commandOutcome (s.withPending rest) rfl)

end Sys2Proof.Machine
end

section
/-! PROOF. Steps that no access asks for, idleness and RESET, and the repetition of a command
(spec/60_exceptions.md rules R136, R141; spec/70_reset_and_hazards.md rules R150, R156, R161). -/

namespace Sys2Proof.Machine

/-! ## Idleness and RESET -/

/-- Settles O7: with no event of the run to take, `step` answers the state as it is. -/
theorem idleBlockKeepsState : Obligations.IdleBlockKeepsState := by
  intro s hp
  simp [step, hp]

theorem step_of_reset {s : State} {rest : List HostEvent} (hp : s.pending = .reset :: rest) :
    step s = .next (s.withPending rest).resetBlock := by
  simp [step, hp]

/-- Settles O9: the reset block reads 0 in every register, whatever state the event finds. -/
theorem resetEventRestoresReset : Obligations.ResetEventRestoresReset :=
  fun _ _ hp => ⟨_, step_of_reset hp, readReg_resetBlock _, rfl, fun _ => rfl⟩

/-- Settles O10: the reset replaces the block, and the widths, the run and the values read are no part of it. -/
theorem resetEventKeepsBuildAndRun : Obligations.ResetEventKeepsBuildAndRun :=
  fun _ _ hp => step_of_reset hp

/-! ## Repetition -/

/-- Concluding again with the same result writes what the outcome registers already hold (R16). -/
theorem State.conclude_conclude (s : State) (w : Word) (r : Except BlockError Nat) :
    (s.conclude w r).conclude w r = s.conclude w r := by
  cases r with
  | ok v => rfl
  | error e => rfl

/-- A command's own conclusion is none of its inputs (R21). -/
theorem State.sameInputs_conclude (s : State) (w : Word) (r : Except BlockError Nat) :
    s.SameInputs (s.conclude w r) := by
  constructor <;> simp

/-- Settles O47: the command's inputs are as they were, so it concludes with the same result over itself. -/
theorem repeatedCommandSameOutcome : Obligations.RepeatedCommandSameOutcome := by
  intro i s t hj h
  obtain ⟨w, r, rfl, hr⟩ := exec_judgement hj h
  rw [hr _ (s.sameInputs_conclude w r), State.conclude_conclude]

end Sys2Proof.Machine
end
